-- ==== Sys2Proof/Word.lean ====
section
/-! DEFINITION. The word types of BFCORE (spec/00_scope.md R5, R8): all values are unsigned. -/

namespace Sys2Proof

/-- A byte, 0 .. 255 (R8). -/
abbrev Byte := BitVec 8

/-- A command, response, hash, `M` or `K` word: 32 bits (R5). -/
abbrev Word := BitVec 32

/-- A 64-bit quantity: `COUNT` and `BITS_MAX` (R5). -/
abbrev DWord := BitVec 64

/-- A key: a finite sequence of bytes, `key[0]` first (R8). -/
abbrev Key := List Byte

end Sys2Proof
end

