-- ==== Sys2Proof/Syntax.lean ====
section
/-! DEFINITION. The commands (spec/opcode_table.json, spec/30_encoding.md R72), the control-register
names (spec/10_state.md R31) and the response a command gives (R77, spec/60_exceptions.md R200). -/

namespace Sys2Proof

/-- The control registers `RDREG` reads, by name (R31). Numbers 7 .. 255 name none. -/
inductive CtrlReg where
  | state
  | m
  | k
  | countLo
  | countHi
  | capLo
  | capHi
  deriving DecidableEq, Repr

/-- The commands of the opcode table, one constructor a row (R72). A key is the decoded key, its pad
bytes gone (R73). An illegal header is no row and no constructor: the decoder names it (R76). -/
inductive Instr where
  | initMk (m k : Word)
  | add (key : Key)
  | query (key : Key)
  | hashFnv (key : Key)
  | hashMur (key : Key)
  | rdreg (r : CtrlReg)
  | rdbit (v idx : Word)
  deriving DecidableEq, Repr

/-- The STATUS of a response: exactly these five exist (R200). -/
inductive Status where
  | ok
  | invalidParameter
  | invalidState
  | illegalCommand
  | capacityExceeded
  deriving DecidableEq, Repr

/-- A response before it is laid out in two words (R77): the echo of the header's OPC, STATUS, VALUE. -/
structure Response where
  opc : Byte
  status : Status
  value : Word
  deriving DecidableEq, Repr

end Sys2Proof
end

