-- ==== Sys2Proof/WellFormed.lean ====
section
/-! DEFINITION. Which commands have words: `LEN` is a 32-bit word, so a key has at most 2^32 - 1 bytes
(spec/30_encoding.md R73, spec/00_scope.md R5). Every operand of the other commands is a full word or a
register that exists, so they have no check. -/

namespace Sys2Proof

/-- The length of a key fits the `LEN` word (R73). -/
abbrev KeyFits (key : Key) : Prop := key.length < 2 ^ 32

/-- A command that can be sent: its key, if it carries one, is no longer than `LEN` can say. -/
abbrev WellFormed : Instr → Prop
  | .initMk _ _ => True
  | .add key => KeyFits key
  | .query key => KeyFits key
  | .hashFnv key => KeyFits key
  | .hashMur key => KeyFits key
  | .rdreg _ => True
  | .rdbit _ _ => True

end Sys2Proof
end

