-- ==== Sys2Proof/Decode.lean ====
section
/-! DEFINITION. From command words to commands and back (spec/30_encoding.md R71 to R77). Decoding is a
total function of the command stream (R75); every header that is none of the seven commands is illegal
(R76), with the clause of R76 it falls under as its name. The encoder follows the table of R72 and packs
the key by R73, pad bytes 0. -/

namespace Sys2Proof

/-! ### The header word -/

/-- `OPC`, bits [31:24] of a header word (R71). -/
def opcOf (h : Word) : Byte := h.extractLsb' 24 8

/-- `ARG24`, bits [23:0] of a header word (R71). -/
def argOf (h : Word) : BitVec 24 := h.extractLsb' 0 24

/-- A header word from its two fields (R71). -/
def headerWord (opc : Byte) (arg : BitVec 24) : Word :=
  (opc.setWidth 32 <<< 24) ||| arg.setWidth 32

/-- The number of a control register (R31). -/
def ctrlRegNumber : CtrlReg → Byte
  | .state => 0
  | .m => 1
  | .k => 2
  | .countLo => 3
  | .countHi => 4
  | .capLo => 5
  | .capHi => 6

/-- The control register with a number; none for the reserved numbers 7 .. 255 (R31). -/
def ctrlRegOf (r : Byte) : Option CtrlReg :=
  match r.toNat with
  | 0 => some .state
  | 1 => some .m
  | 2 => some .k
  | 3 => some .countLo
  | 4 => some .countHi
  | 5 => some .capLo
  | 6 => some .capHi
  | _ => none

/-- Why a header is illegal: the clauses of R76. Software cannot see which clause applied. -/
inductive IllegalReason where
  /-- (a) `OPC` is 0x00 or in 0x08 .. 0xFF. -/
  | unassignedOpcode
  /-- (b), and the first half of (c): bits of `ARG24` that must be 0 are not. -/
  | nonzeroArg
  /-- The second half of (c): `RDREG` of a register number above 6. -/
  | badRegister
  deriving DecidableEq, Repr

/-- What a header word says by itself (R74). -/
inductive Header where
  | initMk
  | add
  | query
  | hashFnv
  | hashMur
  | rdreg (r : CtrlReg)
  | rdbit
  | illegal (why : IllegalReason)
  deriving DecidableEq, Repr

/-- A header whose `ARG24` must be 0 (R71, R76 b). -/
def plainHeader (h : Word) (x : Header) : Header :=
  if argOf h = 0 then x else .illegal .nonzeroArg

/-- The header of `RDREG` (R71, R76 c). -/
def rdregHeader (h : Word) : Header :=
  if h.extractLsb' 8 16 = 0 then
    match ctrlRegOf (h.extractLsb' 0 8) with
    | some r => .rdreg r
    | none => .illegal .badRegister
  else .illegal .nonzeroArg

/-- The case split of R75 on a header word. -/
def readHeader (h : Word) : Header :=
  match (opcOf h).toNat with
  | 1 => plainHeader h .initMk
  | 2 => plainHeader h .add
  | 3 => plainHeader h .query
  | 4 => plainHeader h .hashFnv
  | 5 => plainHeader h .hashMur
  | 6 => rdregHeader h
  | 7 => plainHeader h .rdbit
  | _ => .illegal .unassignedOpcode

/-! ### The key operand -/

/-- `ceil4(L) = (L + 3) div 4`, the number of payload words (R8, R72). -/
def ceil4 (len : Nat) : Nat := (len + 3) / 4

/-- Byte lane `j` of a payload word, bits [8j+7 : 8j] (R57). -/
def wordByte (w : Word) (j : Nat) : Byte := w.extractLsb' (8 * j) 8

/-- The four key bytes of a full payload word, least significant first (R57). -/
def wordBytes (w : Word) : List Byte := [wordByte w 0, wordByte w 1, wordByte w 2, wordByte w 3]

/-- The key a payload carries: its first `len` bytes; the pad bytes are dropped (R73). -/
def unpackKey (len : Nat) (payload : List Word) : Key := (payload.flatMap wordBytes).take len

/-- A payload word from its four byte lanes, lane 0 least significant (R57). -/
def packWord (b0 b1 b2 b3 : Byte) : Word :=
  b0.setWidth 32 ||| (b1.setWidth 32 <<< 8) ||| (b2.setWidth 32 <<< 16) ||| (b3.setWidth 32 <<< 24)

/-- The payload words of a key, pad bytes 0 (R73, R78). -/
def packKey : Key → List Word
  | [] => []
  | [b0] => [packWord b0 0 0 0]
  | [b0, b1] => [packWord b0 b1 0 0]
  | [b0, b1, b2] => [packWord b0 b1 b2 0]
  | b0 :: b1 :: b2 :: b3 :: rest => packWord b0 b1 b2 b3 :: packKey rest

/-! ### The command stream -/

/-- What the front of a command stream holds (R75). -/
inductive Decoded where
  /-- A command all of whose words have been transferred, and the words after it. -/
  | command (i : Instr) (rest : List Word)
  /-- An illegal header, one word, the clause of R76, and the words after it. -/
  | illegal (h : Word) (why : IllegalReason) (rest : List Word)
  /-- Words of a command are still missing: the block waits (R236). -/
  | incomplete
  deriving DecidableEq, Repr

/-- The two operand words of `INIT_MK` and `RDBIT`. -/
def decodeTwo (mk : Word → Word → Instr) : List Word → Decoded
  | a :: b :: rest => .command (mk a b) rest
  | _ => .incomplete

/-- `LEN` and the payload of a key command (R73). -/
def decodeKey (mk : Key → Instr) : List Word → Decoded
  | [] => .incomplete
  | len :: s =>
    if s.length < ceil4 len.toNat then .incomplete
    else .command (mk (unpackKey len.toNat (s.take (ceil4 len.toNat)))) (s.drop (ceil4 len.toNat))

/-- Decoding the front of the command stream (R75). -/
def decode : List Word → Decoded
  | [] => .incomplete
  | h :: s =>
    match readHeader h with
    | .initMk => decodeTwo .initMk s
    | .add => decodeKey .add s
    | .query => decodeKey .query s
    | .hashFnv => decodeKey .hashFnv s
    | .hashMur => decodeKey .hashMur s
    | .rdreg r => .command (.rdreg r) s
    | .rdbit => decodeTwo .rdbit s
    | .illegal why => .illegal h why s

/-- How many words the command at the front of a stream takes, as far as its words say (R74): the header
alone gives it except for a key command, whose second word gives the rest. -/
def commandLength : List Word → Nat
  | [] => 1
  | h :: s =>
    match readHeader h with
    | .initMk => 3
    | .rdbit => 3
    | .rdreg _ => 1
    | .illegal _ => 1
    | _ => 2 + ceil4 (match s with
        | [] => 0
        | len :: _ => len.toNat)

/-! ### The encoder -/

/-- The opcode of a command (R72). -/
def opcodeOf : Instr → Byte
  | .initMk _ _ => 0x01
  | .add _ => 0x02
  | .query _ => 0x03
  | .hashFnv _ => 0x04
  | .hashMur _ => 0x05
  | .rdreg _ => 0x06
  | .rdbit _ _ => 0x07

/-- The words of a key command (R72, R73). -/
def encodeKey (opc : Byte) (key : Key) : List Word :=
  headerWord opc 0 :: BitVec.ofNat 32 key.length :: packKey key

/-- The words of a command (R72). -/
def encode : Instr → List Word
  | .initMk m k => [headerWord 0x01 0, m, k]
  | .add key => encodeKey 0x02 key
  | .query key => encodeKey 0x03 key
  | .hashFnv key => encodeKey 0x04 key
  | .hashMur key => encodeKey 0x05 key
  | .rdreg r => [headerWord 0x06 ((ctrlRegNumber r).setWidth 24)]
  | .rdbit v idx => [headerWord 0x07 0, v, idx]

/-! ### Responses -/

/-- The code of a STATUS (R200). -/
def statusCode : Status → Byte
  | .ok => 0x00
  | .invalidParameter => 0x01
  | .invalidState => 0x02
  | .illegalCommand => 0x03
  | .capacityExceeded => 0x04

/-- The STATUS with a code; 0x05 .. 0xFF are never produced (R200). -/
def statusOf (c : Byte) : Option Status :=
  match c.toNat with
  | 0 => some .ok
  | 1 => some .invalidParameter
  | 2 => some .invalidState
  | 3 => some .illegalCommand
  | 4 => some .capacityExceeded
  | _ => none

/-- The two words of a response (R77): word 0 is the OPC echo in [31:24], zeros in [23:8] and STATUS in
[7:0]; word 1 is VALUE. -/
def encodeResponse (r : Response) : List Word :=
  [(r.opc.setWidth 32 <<< 24) ||| (statusCode r.status).setWidth 32, r.value]

/-- What a host reads in two response words (R77); none where the block never sends them. -/
def decodeResponse (w0 w1 : Word) : Option Response :=
  if w0.extractLsb' 8 16 = 0 then
    (statusOf (w0.extractLsb' 0 8)).map fun st => { opc := opcOf w0, status := st, value := w1 }
  else none

/-! ### Words of the opcode table, for the host's check -/

/-- Word `j` of a number laid out first word lowest. -/
def nthWord (w j : Nat) : Word := BitVec.ofNat 32 (w / 2 ^ (32 * j))

/-- The command words of an instruction given as a number of `nbits` bits, first word least significant,
followed by operand words of zeros: exactly the words the command takes (R74). -/
def tableWords (nbits w : Nat) : List Word :=
  let ws := (List.range (max 3 ((nbits + 31) / 32))).map (nthWord (w % 2 ^ nbits))
  ws.take (commandLength ws)

/-- The instruction the decoder reads from a table word. -/
def decodeTableWord (nbits w : Nat) : Option Instr :=
  match decode (tableWords nbits w) with
  | .command i _ => some i
  | .illegal _ _ _ => none
  | .incomplete => none

end Sys2Proof
end

