-- ==== Sys2Proof/Config.lean ====
section
/-! DEFINITION. What an implementation of BFCORE fixes (spec/00_scope.md R5, spec/92_eei_decisions.md
section 2). Both parameters are fields of State that no step writes, so a statement over all states
holds for every value of them; the values here are those State.reset starts from. -/

namespace Sys2Proof

/-- `BITS_MAX` of the spec's reference configuration (R5, decision D27): 2^20.
DESIGN CHOICE, unsafe for a statement about `State.reset` that rests on it (log 2). -/
def Config.referenceBitsMax : DWord := 1048576

/-- The response buffering depth `State.reset` starts from: the least the spec allows (R237).
DESIGN CHOICE, unsafe for a statement about `State.reset` that rests on it (log 3). -/
def Config.leastRspDepth : Nat := 1

end Sys2Proof
end

