-- ==== Sys2Proof/Machine/State.lean ====
section
/-! DEFINITION. The state of BFCORE (spec/10_state.md R20, R31, R32; the two channels of spec/30_encoding.md
R70), the reasons a step can stop, and the state after reset (spec/70_reset_and_hazards.md R230). -/

namespace Sys2Proof.Machine

/-- The address of a bit-vector cell: vector number `v`, bit index `idx` (R50). -/
abbrev Cell := Nat × Nat

/-- The order the cells are kept in: by vector, then by index. -/
abbrev CellLt (c d : Cell) : Prop := c.1 < d.1 ∨ (c.1 = d.1 ∧ c.2 < d.2)

/-- The bit-vector space `BV` as the list of the cells that hold 1; an unlisted cell holds 0, which is
what `INIT_MK` leaves in every cell (R24, R33). The layout of the bits is unobservable (R52). -/
abbrev Memory := List Cell

/-- The canonical form: cells strictly rising, hence none listed twice. -/
abbrev Memory.wf (mem : Memory) : Prop := mem.Pairwise CellLt

/-- What the host does to the block (R70, R240): the three kinds of event there are. -/
inductive HostEvent where
  /-- The host offers a command word until it is transferred. -/
  | word (w : Word)
  /-- The host is ready for a response word until one is transferred. -/
  | accept
  /-- The host asserts reset. -/
  | reset
  deriving DecidableEq, Repr

/-- The state. `init` to `count` are the spec's tuple (R20); `bitsMax` and `rspDepth` are parameters no
step writes (R5, R237); `cmd` and `rsp` are the words inside the two channels (R70); `host` and
`received` are the host's side of them, the model's own fields (log 1). -/
structure State where
  /-- `INIT`: false is Uninitialized, true is Initialized (R21). -/
  init : Bool
  /-- `M`, bits per vector (R22). -/
  m : Word
  /-- `K`, number of vectors (R23). -/
  k : Word
  /-- `BV`, the cells that hold 1 (R24). -/
  bv : Memory
  /-- `COUNT`, successful `ADD`s, saturating (R25). -/
  count : DWord
  /-- `BITS_MAX`, hardwired, read as `CAP_LO` and `CAP_HI` (R5, R31). -/
  bitsMax : DWord
  /-- How many responses the block holds before it stops accepting command words (R237). -/
  rspDepth : Nat
  /-- Command words transferred and not yet consumed, oldest first (R70, R75). -/
  cmd : List Word
  /-- Response words emitted and not yet transferred, oldest first (R70, R77). -/
  rsp : List Word
  /-- What the host has still to do, in order (model's own, log 1). -/
  host : List HostEvent
  /-- Response words transferred to the host, oldest first (model's own, log 1). -/
  received : List Word
  deriving DecidableEq, Repr

/-- Why the machine stops with a fault. -/
inductive Fault where
  /-- Raised by `memRead` and `memWrite` for a cell outside `0 <= v < K`, `0 <= idx < M`, where neither
  primitive is defined (R51). Safe: the model stops where the spec gives no meaning, and no well-formed
  state gets there (log 10). -/
  | bitAddress (v idx : Nat)
  deriving DecidableEq, Repr

/-- Why the machine refuses a command. -/
inductive Refusal where
  /-- Raised by no arm of `exec` as it stands: every command of the table has its meaning. Safe. -/
  | notModelled (mnemonic : String)
  deriving DecidableEq, Repr

/-- The state after a reset event at power-on (R32, R230): Uninitialized, `M`, `K`, `COUNT` 0, no cells,
no word in either channel. `bitsMax` and `rspDepth` are the reference values (log 2, log 3); the host
has sent and received nothing (log 1). -/
def State.reset : State where
  init := false
  m := 0
  k := 0
  bv := []
  count := 0
  bitsMax := Config.referenceBitsMax
  rspDepth := Config.leastRspDepth
  cmd := []
  rsp := []
  host := []
  received := []

end Sys2Proof.Machine
end

