-- ==== Sys2Proof/Machine/Ops.lean ====
section
/-! DEFINITION. The shared operations: bit-vector memory (spec/20_memory.md R51), responding and taking an
error (spec/30_encoding.md R77, spec/60_exceptions.md R206), and the events of the two channels and of
reset (spec/30_encoding.md R70, spec/70_reset_and_hazards.md R230, R232, R237). There is no return from an
error (R208). -/

namespace Sys2Proof.Machine

/-! ### Bit-vector memory -/

/-- The bit a cell holds: 1 where listed, 0 elsewhere. -/
def Memory.read (mem : Memory) (c : Cell) : Bool := decide (c ∈ mem)

/-- Listing a cell, in its place. -/
def Memory.insert (c : Cell) : Memory → Memory
  | [] => [c]
  | d :: rest =>
    if c = d then d :: rest
    else if CellLt c d then c :: d :: rest
    else d :: Memory.insert c rest

/-- Writing a bit: a cell that holds 0 is not listed. -/
def Memory.write (mem : Memory) (c : Cell) (b : Bool) : Memory :=
  if b then Memory.insert c mem else mem.filter fun d => decide (d ≠ c)

/-- `BV[v][idx]` as the state holds it. -/
def State.bit (s : State) (v idx : Nat) : Bool := Memory.read s.bv (v, idx)

/-- The cells that exist: `0 <= v < K`, `0 <= idx < M` (R50). -/
abbrev State.hasCell (s : State) (v idx : Nat) : Prop := v < s.k.toNat ∧ idx < s.m.toNat

/-- The state with one bit written. -/
def State.setBit (s : State) (v idx : Nat) (b : Bool) : State :=
  { s with bv := Memory.write s.bv (v, idx) b }

/-- `MemRead((v, idx), 1)` (R51). -/
def memRead (s : State) (v idx : Nat) : Except Fault Bool :=
  if s.hasCell v idx then .ok (s.bit v idx) else .error (.bitAddress v idx)

/-- `MemWrite((v, idx), 1, b)` (R51). -/
def memWrite (s : State) (v idx : Nat) (b : Bool) : Except Fault State :=
  if s.hasCell v idx then .ok (s.setBit v idx b) else .error (.bitAddress v idx)

/-! ### Responses and errors -/

/-- Emitting the two words of a response, in its place in the response stream (R77). -/
def respond (opc : Byte) (st : Status) (value : Word) (s : State) : State :=
  { s with rsp := s.rsp ++ encodeResponse { opc := opc, status := st, value := value } }

/-- Taking an error (R206): no architectural state is written, VALUE is 0. -/
def raise (opc : Byte) (st : Status) (s : State) : State := respond opc st 0 s

/-- The answer to an illegal header (R76, R203). -/
def illegalHeader (h : Word) (s : State) : State := raise (opcOf h) .illegalCommand s

/-- The words of the command are consumed (R75). -/
def consume (rest : List Word) (s : State) : State := { s with cmd := rest }

/-! ### The host's events -/

/-- How many responses the block holds; one whose first word is transferred still counts (R237, log 3). -/
def heldResponses (s : State) : Nat := (s.rsp.length + 1) / 2

/-- Whether an event can happen now: a command word while the block accepts one (R237), an acceptance
while there is a response word, a reset always. -/
def canHappen (s : State) : HostEvent → Bool
  | .word _ => decide (heldResponses s < s.rspDepth)
  | .accept => decide (s.rsp ≠ [])
  | .reset => true

/-- The first event that can happen, and the others in their order: the channels do not wait for each
other (R70, log 6). -/
def firstEvent (p : HostEvent → Bool) : List HostEvent → Option (HostEvent × List HostEvent)
  | [] => none
  | e :: es =>
    if p e then some (e, es)
    else match firstEvent p es with
      | none => none
      | some (x, rest) => some (x, e :: rest)

/-- The reset event (R230, R232): the block's state is that after reset, whatever was under way; the
parameters and the host's side stay. -/
def resetBlock (s : State) : State :=
  { s with init := false, m := 0, k := 0, bv := [], count := 0, cmd := [], rsp := [] }

/-- One response word goes to the host (R70). -/
def transferResponse (s : State) : State :=
  match s.rsp with
  | [] => s
  | w :: rest => { s with rsp := rest, received := s.received ++ [w] }

/-- What an event does (R70). -/
def hostEvent : HostEvent → State → State
  | .word w, s => { s with cmd := s.cmd ++ [w] }
  | .accept, s => transferResponse s
  | .reset, s => resetBlock s

/-- What happens while the words of a command are missing: the first event that can, or nothing, the
block waiting without end (R236, log 4). -/
def hostStep (s : State) : State :=
  match firstEvent (canHappen s) s.host with
  | none => s
  | some (e, rest) => hostEvent e { s with host := rest }

end Sys2Proof.Machine
end

