-- ==== Sys2Proof/Machine/Flags.lean ====
section
/-! DEFINITION. The block has no flags and no condition codes (spec/10_state.md R30). What stands in their
place is the condition a command reports in its own response: the first that holds in the order state,
parameter, capacity (spec/60_exceptions.md R205; decode comes before, in the decoder). -/

namespace Sys2Proof.Machine

/-- The conditions of `INIT_MK` (R154, R205): the product is exact. -/
def checkInitMk (s : State) (m k : Word) : Option Status :=
  if s.init then some .invalidState
  else if m = 0 ∨ k = 0 then some .invalidParameter
  else if s.bitsMax.toNat < m.toNat * k.toNat then some .capacityExceeded
  else none

/-- The condition of `ADD` and `QUERY` (R155, R156, R202). -/
def checkFilter (s : State) : Option Status :=
  if s.init then none else some .invalidState

/-- The conditions of `RDBIT` (R191, R205). -/
def checkRdbit (s : State) (v idx : Word) : Option Status :=
  if s.init = false then some .invalidState
  else if s.k.toNat ≤ v.toNat ∨ s.m.toNat ≤ idx.toNat then some .invalidParameter
  else none

end Sys2Proof.Machine
end

