-- ==== Sys2Proof/Machine/Arith.lean ====
section
/-! DEFINITION. The 32-bit arithmetic primitives of spec/00_scope.md R9. Every multiplication and addition
wraps; every shift is logical. -/

namespace Sys2Proof.Machine

/-- Bitwise exclusive-or (R9). -/
def xor32 (a b : Word) : Word := a ^^^ b

/-- `(a * b) mod 2^32` (R9). -/
def mul32 (a b : Word) : Word := a * b

/-- `(a + b) mod 2^32` (R9). -/
def add32 (a b : Word) : Word := a + b

/-- `a div 2^r`, zeros entering at the top (R9). -/
def shr32 (a : Word) (r : Nat) : Word := a >>> r

/-- Rotate left by `r`, `0 < r < 32` (R9): `((a * 2^r) mod 2^32) + (a div 2^(32-r))`. -/
def rotl32 (a : Word) (r : Nat) : Word := (a <<< r) + (a >>> (32 - r))

/-- A byte as a 32-bit value, high bits zero (R10). -/
def zext32 (b : Byte) : Word := b.setWidth 32

/-- A byte in byte lane `j` of a word: `b * 2^(8j)` (R122, R124). -/
def lane (b : Byte) (j : Nat) : Word := zext32 b <<< (8 * j)

/-- Byte `j` of a key; 0 past its end, where no rule reads it. -/
def keyByte (key : Key) (j : Nat) : Byte := key.getD j 0

end Sys2Proof.Machine
end

