-- ==== Sys2Proof/Machine/Fnv.lean ====
section
/-! DEFINITION. The Hash32-FNV engine and `HASH_FNV` (spec/40_hash_fnv.md). The byte is exclusive-ored in
first and the multiplication comes second, whatever the unit's label says (spec/90_conflicts.md C1). -/

namespace Sys2Proof.Machine

/-- The offset basis, 0x811C9DC5 (R100). -/
def fnvOffsetBasis : Word := 2166136261

/-- The prime, 0x01000193 (R100). -/
def fnvPrime : Word := 16777619

/-- One key byte into the accumulator `FNV.ACC` (R101, R102). -/
def fnvAbsorb (acc : Word) (b : Byte) : Word := mul32 (xor32 acc (zext32 b)) fnvPrime

/-- The FNV hash of a key (R101). -/
def fnv32 (key : Key) : Word := key.foldl fnvAbsorb fnvOffsetBasis

/-- `HASH_FNV key` (R106): valid in both lifecycle states, writes no state, cannot fail. -/
def execHashFnv (key : Key) (s : State) : Host.Outcome State Fault Refusal :=
  .next (respond 0x04 .ok (fnv32 key) s)

end Sys2Proof.Machine
end

