-- ==== Sys2Proof/Machine/Murmur.lean ====
section
/-! DEFINITION. The Hash32-Murmur engine and `HASH_MUR` (spec/41_hash_murmur.md): the function of R127 with
its block, tail and finalization, and its streaming form over the engine's working registers
(spec/10_state.md R27), which are no state of the machine (spec/93_implementation_defined.md U2). The tail
is read by byte offset (spec/90_conflicts.md C3). -/

namespace Sys2Proof.Machine

/-! ### Constants (R120) -/

/-- `SEED` (R120). -/
def murSeed : Word := 0

/-- `C1` (R120). -/
def murC1 : Word := 0xCC9E2D51

/-- `C2` (R120). -/
def murC2 : Word := 0x1B873593

/-- `BLOCK_MULT` (R120). -/
def murBlockMult : Word := 5

/-- `BLOCK_ADD` (R120). -/
def murBlockAdd : Word := 0xE6546B64

/-- `FMIX1` (R120). -/
def murFmix1 : Word := 0x85EBCA6B

/-- `FMIX2` (R120). -/
def murFmix2 : Word := 0xC2B2AE35

/-! ### The function -/

/-- The mix of a block or tail word, with `ROT1` = 15 (R123). -/
def scramble (w : Word) : Word := mul32 (rotl32 (mul32 w murC1) 15) murC2

/-- One block into the running hash, with `ROT2` = 13 (R123). -/
def blockmix (h w : Word) : Word :=
  add32 (mul32 (rotl32 (xor32 h (scramble w)) 13) murBlockMult) murBlockAdd

/-- Block `b` of a key as a little-endian word (R122). -/
def blockword (key : Key) (b : Nat) : Word :=
  lane (keyByte key (4 * b)) 0 + lane (keyByte key (4 * b + 1)) 1
    + lane (keyByte key (4 * b + 2)) 2 + lane (keyByte key (4 * b + 3)) 3

/-- The tail bytes as a word, indexed by byte offset `4*NB + j` (R124). -/
def tailword (key : Key) : Word :=
  (List.range (key.length % 4)).foldl
    (fun w j => w + lane (keyByte key (4 * (key.length / 4) + j)) j) 0

/-- The tail into the running hash: an exclusive-or only (R125). -/
def tailmix (h : Word) (key : Key) : Word :=
  if key.length % 4 = 0 then h else xor32 h (scramble (tailword key))

/-- The finalization, with shifts 16, 13, 16 (R126). -/
def fmix (h len : Word) : Word :=
  let h := xor32 h len
  let h := xor32 h (shr32 h 16)
  let h := mul32 h murFmix1
  let h := xor32 h (shr32 h 13)
  let h := mul32 h murFmix2
  xor32 h (shr32 h 16)

/-- The running hash after every full block, in increasing order (R121, R127). -/
def blocksHash (key : Key) : Word :=
  (List.range (key.length / 4)).foldl (fun h b => blockmix h (blockword key b)) murSeed

/-- The Murmur hash of a key (R127). -/
def murmur32 (key : Key) : Word :=
  fmix (tailmix (blocksHash key) key) (BitVec.ofNat 32 key.length)

/-! ### The streaming form -/

/-- The engine's working registers `MUR.H`, `MUR.KW`, `MUR.LEN` (spec/10_state.md R27). -/
structure MurRegs where
  h : Word
  kw : Word
  len : Word
  deriving DecidableEq, Repr

/-- Their values at the start of a key command (R127). -/
def murStart : MurRegs := { h := murSeed, kw := 0, len := 0 }

/-- One key byte into the working registers (R127). -/
def murAbsorb (r : MurRegs) (b : Byte) : MurRegs :=
  let j := r.len.toNat % 4
  let kw := r.kw + lane b j
  if j = 3 then { h := blockmix r.h kw, kw := 0, len := r.len + 1 }
  else { h := r.h, kw := kw, len := r.len + 1 }

/-- The hash after the last byte (R127). -/
def murFinish (r : MurRegs) : Word :=
  fmix (if r.len.toNat % 4 = 0 then r.h else xor32 r.h (scramble r.kw)) r.len

/-- The Murmur hash in its streaming form (R127). -/
def murmurStream (key : Key) : Word := murFinish (key.foldl murAbsorb murStart)

/-! ### The command -/

/-- `HASH_MUR key` (R130): valid in both lifecycle states, writes no state, cannot fail. -/
def execHashMur (key : Key) (s : State) : Host.Outcome State Fault Refusal :=
  .next (respond 0x05 .ok (murmur32 key) s)

end Sys2Proof.Machine
end

