-- ==== Sys2Proof/Machine/Operands.lean ====
section
/-! DEFINITION. Where the commands get the values they work on: the control registers `RDREG` reads
(spec/10_state.md R31, spec/43_system.md R190) and the cell a round of `ADD` or `QUERY` addresses
(spec/42_bloom.md R150). The other operands are whole words of the command; keys are unpacked by the
decoder (spec/30_encoding.md R73). -/

namespace Sys2Proof.Machine

/-- `reg[r]` (R190): `STATE` is `INIT` zero-extended; `COUNT` and `BITS_MAX` are read in halves. -/
def readReg (s : State) : CtrlReg → Word
  | .state => (BitVec.ofBool s.init).setWidth 32
  | .m => s.m
  | .k => s.k
  | .countLo => s.count.extractLsb' 0 32
  | .countHi => s.count.extractLsb' 32 32
  | .capLo => s.bitsMax.extractLsb' 0 32
  | .capHi => s.bitsMax.extractLsb' 32 32

/-- The round index (R150), on natural numbers, exact, never wrapped before the `mod` (R151). -/
def index (f g : Word) (i m : Nat) : Nat :=
  if i = 1 then f.toNat % m
  else if i = 2 then g.toNat % m
  else (f.toNat + g.toNat * i) % m

/-- The cell round `i` addresses: bit `index` of vector `i - 1` (R24, R155). -/
def roundCell (f g : Word) (i : Nat) (m : Word) : Cell := (i - 1, index f g i m.toNat)

/-- A bit as the VALUE of a response (R77, R190, R191). -/
def bitValue (b : Bool) : Word := (BitVec.ofBool b).setWidth 32

end Sys2Proof.Machine
end

