-- ==== Sys2Proof/Machine/Bloom.lean ====
section
/-! DEFINITION. The BloomFilter unit: `INIT_MK`, `ADD` and `QUERY` (spec/42_bloom.md R154 to R156). Each hash
is computed once for a key and used for every round (R153). -/

namespace Sys2Proof.Machine

/-- What a successful `INIT_MK` leaves (R33, R154): every cell it creates holds 0. -/
def constructFilter (m k : Word) (s : State) : State :=
  { s with init := true, m := m, k := k, bv := [], count := 0 }

/-- `INIT_MK m, k` (R154). -/
def execInitMk (m k : Word) (s : State) : Host.Outcome State Fault Refusal :=
  match checkInitMk s m k with
  | some e => .next (raise 0x01 e s)
  | none => .next (respond 0x01 .ok 0 (constructFilter m k s))

/-- The writes of `ADD` for `n` rounds from round `i` on (R155). -/
def setRounds (f g : Word) : Nat → Nat → State → Except Fault State
  | _, 0, s => .ok s
  | i, n + 1, s =>
    match memWrite s (roundCell f g i s.m).1 (roundCell f g i s.m).2 true with
    | .error e => .error e
    | .ok t => setRounds f g (i + 1) n t

/-- `COUNT <- min(COUNT + 1, 2^64 - 1)` (R25, R155). -/
def countAdd (s : State) : State :=
  { s with count := BitVec.ofNat 64 (min (s.count.toNat + 1) (2 ^ 64 - 1)) }

/-- `ADD key` (R155). -/
def execAdd (key : Key) (s : State) : Host.Outcome State Fault Refusal :=
  match checkFilter s with
  | some e => .next (raise 0x02 e s)
  | none =>
    match setRounds (fnv32 key) (murmur32 key) 1 s.k.toNat s with
    | .error e => .fault e
    | .ok t => .next (respond 0x02 .ok 0 (countAdd t))

/-- The tests of `QUERY` for `n` rounds from round `i` on, ending at the first miss (R156, R157). -/
def testRounds (f g : Word) (s : State) : Nat → Nat → Except Fault Bool
  | _, 0 => .ok true
  | i, n + 1 =>
    match memRead s (roundCell f g i s.m).1 (roundCell f g i s.m).2 with
    | .error e => .error e
    | .ok false => .ok false
    | .ok true => testRounds f g s (i + 1) n

/-- `QUERY key` (R156). -/
def execQuery (key : Key) (s : State) : Host.Outcome State Fault Refusal :=
  match checkFilter s with
  | some e => .next (raise 0x03 e s)
  | none =>
    match testRounds (fnv32 key) (murmur32 key) s 1 s.k.toNat with
    | .error e => .fault e
    | .ok b => .next (respond 0x03 .ok (bitValue b) s)

end Sys2Proof.Machine
end

