-- ==== Sys2Proof/Machine/Diag.lean ====
section
/-! DEFINITION. The diagnostic commands `RDREG` and `RDBIT` (spec/43_system.md): they read and change nothing. -/

namespace Sys2Proof.Machine

/-- `RDREG r` (R190): valid in both lifecycle states, cannot fail. -/
def execRdreg (r : CtrlReg) (s : State) : Host.Outcome State Fault Refusal :=
  .next (respond 0x06 .ok (readReg s r) s)

/-- `RDBIT v, idx` (R191). -/
def execRdbit (v idx : Word) (s : State) : Host.Outcome State Fault Refusal :=
  match checkRdbit s v idx with
  | some e => .next (raise 0x07 e s)
  | none =>
    match memRead s v.toNat idx.toNat with
    | .error e => .fault e
    | .ok b => .next (respond 0x07 .ok (bitValue b) s)

end Sys2Proof.Machine
end

