-- ==== Sys2Proof/Machine/Dispatch.lean ====
section
/-! DEFINITION. One command, to completion (spec/00_scope.md R6): its words are already consumed. -/

namespace Sys2Proof.Machine

def exec (i : Instr) (s : State) : Host.Outcome State Fault Refusal :=
  match i with
  | .initMk m k => Sys2Proof.Machine.execInitMk m k s
  | .add key => Sys2Proof.Machine.execAdd key s
  | .query key => Sys2Proof.Machine.execQuery key s
  | .hashFnv key => Sys2Proof.Machine.execHashFnv key s
  | .hashMur key => Sys2Proof.Machine.execHashMur key s
  | .rdreg r => Sys2Proof.Machine.execRdreg r s
  | .rdbit v idx => Sys2Proof.Machine.execRdbit v idx s

end Sys2Proof.Machine
end

