-- ==== Sys2Proof/Machine/Step.lean ====
section
/-! DEFINITION. One step of the sequencer (spec/00_scope.md R6, spec/30_encoding.md R75): a command all of
whose words are there is consumed and executed; an illegal header is consumed and answered; otherwise the
host acts, or the block waits (spec/70_reset_and_hazards.md R236). -/

namespace Sys2Proof.Machine

/-- One step. -/
def step (s : State) : Host.Outcome State Fault Refusal :=
  match decode s.cmd with
  | .command i rest => exec i (consume rest s)
  | .illegal h _ rest => .next (illegalHeader h (consume rest s))
  | .incomplete => .next (hostStep s)

/-- The state with a table word's command at the front of the command channel, all its words already
transferred, so that the next step runs it (log 13). -/
def State.withFetchWord (s : State) (nbits w : Nat) : State :=
  { s with cmd := tableWords nbits w ++ s.cmd }

end Sys2Proof.Machine
end

