-- ==== Sys2Proof/Machine/Assembler.lean ====
section
/-! DEFINITION. The textual syntax of a command (spec/30_encoding.md R78), one command a line, read from its
characters: a mnemonic, operands separated by commas, keys quoted or in brackets, `;` opening a comment.
The assembler is the host's (log 14); what it makes of a line is sent with the encoder. -/

namespace Sys2Proof.Machine

/-- What a line is cut into. -/
inductive Token where
  | word (cs : List Char)
  | quoted (cs : List Char)
  | comma
  | opening
  | closing
  deriving DecidableEq, Repr

/-- Where the reader of a line stands; read characters stand last first. -/
inductive LexMode where
  | gap
  | inWord (rev : List Char)
  | inQuotes (rev : List Char)
  deriving DecidableEq, Repr

/-- The characters of mnemonics, numbers and register names. -/
def isWordChar (c : Char) : Bool :=
  (decide ('a' ≤ c) && decide (c ≤ 'z')) || (decide ('A' ≤ c) && decide (c ≤ 'Z'))
    || (decide ('0' ≤ c) && decide (c ≤ '9')) || decide (c = '_')

/-- The characters a quoted key may hold (R78): 0x20 .. 0x7E but the quote. -/
def isQuotedChar (c : Char) : Bool :=
  decide (0x20 ≤ c.toNat) && decide (c.toNat ≤ 0x7E) && decide (c.toNat ≠ 0x22)

/-- What a character between tokens opens: a separator, a word, a quoted key, a blank; none for a
character the syntax has no use for. -/
def lexGap (c : Char) : Option (List Token × LexMode) :=
  if c = ' ' then some ([], .gap)
  else if c = ',' then some ([.comma], .gap)
  else if c = '[' then some ([.opening], .gap)
  else if c = ']' then some ([.closing], .gap)
  else if c.toNat = 0x22 then some ([], .inQuotes [])
  else if isWordChar c then some ([], .inWord [c])
  else none

/-- A line cut into tokens; none where a quote is left open or a character has no place. -/
def lexLine : LexMode → List Char → Option (List Token)
  | .gap, [] => some []
  | .inWord rev, [] => some [.word rev.reverse]
  | .inQuotes _, [] => none
  | .gap, c :: cs =>
    if c = ';' then some []
    else match lexGap c with
      | none => none
      | some (ts, mode) => (lexLine mode cs).map (ts ++ ·)
  | .inWord rev, c :: cs =>
    if isWordChar c then lexLine (.inWord (c :: rev)) cs
    else if c = ';' then some [.word rev.reverse]
    else match lexGap c with
      | none => none
      | some (ts, mode) => (lexLine mode cs).map (.word rev.reverse :: ts ++ ·)
  | .inQuotes rev, c :: cs =>
    if c.toNat = 0x22 then (lexLine .gap cs).map (.quoted rev.reverse :: ·)
    else if isQuotedChar c then lexLine (.inQuotes (c :: rev)) cs
    else none

/-- The value of a digit, up to hexadecimal. -/
def digitOf (c : Char) : Option Nat :=
  if '0' ≤ c ∧ c ≤ '9' then some (c.toNat - 48)
  else if 'a' ≤ c ∧ c ≤ 'f' then some (c.toNat - 87)
  else if 'A' ≤ c ∧ c ≤ 'F' then some (c.toNat - 55)
  else none

/-- Digits of a base, most significant first, after the value read so far. -/
def readDigits (base : Nat) : Nat → List Char → Option Nat
  | acc, [] => some acc
  | acc, c :: cs =>
    match digitOf c with
    | none => none
    | some d => if d < base then readDigits base (acc * base + d) cs else none

/-- A number, decimal or hexadecimal after `0x` (R78). -/
def readNumber : List Char → Option Nat
  | [] => none
  | '0' :: 'x' :: [] => none
  | '0' :: 'x' :: c :: cs => readDigits 16 0 (c :: cs)
  | c :: cs => readDigits 10 0 (c :: cs)

/-- A number that fits an operand word. -/
def readOperand (cs : List Char) : Option Word :=
  match readNumber cs with
  | none => none
  | some n => if n < 2 ^ 32 then some (BitVec.ofNat 32 n) else none

/-- A byte of a bracketed key: two hexadecimal digits (R78). -/
def readByte : List Char → Option Byte
  | [c, d] => (readDigits 16 0 [c, d]).map (BitVec.ofNat 8)
  | _ => none

/-- The bytes of a bracketed key up to the closing bracket, which ends the line. -/
def readBytes : List Token → Option Key
  | [.closing] => some []
  | .word cs :: ts =>
    match readByte cs, readBytes ts with
    | some b, some bs => some (b :: bs)
    | _, _ => none
  | _ => none

/-- A key operand (R78): quoted text, one byte a character (R59), or bytes in brackets. -/
def readKey : List Token → Option Key
  | [.quoted cs] => some (cs.map fun c => BitVec.ofNat 8 c.toNat)
  | .opening :: ts => readBytes ts
  | _ => none

/-- The name of a control register (R31, R78). -/
def ctrlRegName : CtrlReg → List Char
  | .state => ['S', 'T', 'A', 'T', 'E']
  | .m => ['M']
  | .k => ['K']
  | .countLo => ['C', 'O', 'U', 'N', 'T', '_', 'L', 'O']
  | .countHi => ['C', 'O', 'U', 'N', 'T', '_', 'H', 'I']
  | .capLo => ['C', 'A', 'P', '_', 'L', 'O']
  | .capHi => ['C', 'A', 'P', '_', 'H', 'I']

/-- The control registers in the order of their numbers. -/
def ctrlRegs : List CtrlReg := [.state, .m, .k, .countLo, .countHi, .capLo, .capHi]

/-- A register operand: a name, or a number 0 .. 6 (R78). -/
def readRegister (cs : List Char) : Option CtrlReg :=
  match ctrlRegs.find? fun r => decide (ctrlRegName r = cs) with
  | some r => some r
  | none =>
    match readNumber cs with
    | none => none
    | some n => ctrlRegs[n]?

/-- Two number operands separated by a comma. -/
def readPair (mk : Word → Word → Instr) : List Token → Option Instr
  | [.word a, .comma, .word b] =>
    match readOperand a, readOperand b with
    | some x, some y => some (mk x y)
    | _, _ => none
  | _ => none

/-- The command a line of tokens spells (R72, R78). -/
def parseLine : List Token → Option Instr
  | .word ['I', 'N', 'I', 'T', '_', 'M', 'K'] :: ts => readPair .initMk ts
  | .word ['A', 'D', 'D'] :: ts => (readKey ts).map .add
  | .word ['Q', 'U', 'E', 'R', 'Y'] :: ts => (readKey ts).map .query
  | .word ['H', 'A', 'S', 'H', '_', 'F', 'N', 'V'] :: ts => (readKey ts).map .hashFnv
  | .word ['H', 'A', 'S', 'H', '_', 'M', 'U', 'R'] :: ts => (readKey ts).map .hashMur
  | [.word ['R', 'D', 'R', 'E', 'G'], .word r] => (readRegister r).map .rdreg
  | .word ['R', 'D', 'B', 'I', 'T'] :: ts => readPair .rdbit ts
  | _ => none

/-- The command a line of text spells, if it spells one. -/
def assembleLine (cs : List Char) : Option Instr :=
  match lexLine .gap cs with
  | none => none
  | some ts => parseLine ts

/-- The words the assembler makes of a line: `LEN` computed, pad bytes 0 (R78). -/
def assembleWords (cs : List Char) : Option (List Word) := (assembleLine cs).map encode

/-- The name a STATUS is written with (R78, R200). -/
def statusName : Status → String
  | .ok => "OK"
  | .invalidParameter => "INVALID_PARAMETER"
  | .invalidState => "INVALID_STATE"
  | .illegalCommand => "ILLEGAL_COMMAND"
  | .capacityExceeded => "CAPACITY_EXCEEDED"

end Sys2Proof.Machine
end

