-- ==== Sys2Proof/Machine/Sizing.lean ====
section
/-! DEFINITION. The host's side of construction: the sizing function `size_np` on exact real numbers
(spec/42_bloom.md R160) and the pseudo-instruction `INIT_NP` it serves (spec/30_encoding.md R79). Both are
relations: how a host evaluates the real functions is open (spec/93_implementation_defined.md U3, log 11).
The divisor is the square root of `ln 2` (spec/90_conflicts.md C2). -/

namespace Sys2Proof.Machine

/-- The inputs `size_np` takes: `n >= 1` and `0 < p < 1` (R160); any other raise `InvalidParameter`. -/
def SizeDomain (n : Int) (p : Real) : Prop := 1 ≤ n ∧ 0 < p ∧ p < 1

/-- `k_raw = log2(1/p)`, floor and one more (R160). -/
def SizeK (p : Real) (k : Nat) : Prop := (k : Int) = ⌊Real.logb 2 (1 / p)⌋ + 1

/-- `m_raw = (|ln p| * n) / sqrt(ln 2)`, floor and one more (R160). -/
def SizeM (n : Int) (p : Real) (m : Nat) : Prop :=
  (m : Int) = ⌊(|Real.log p| * (n : Real)) / Real.sqrt (Real.log 2)⌋ + 1

/-- `size_np(n, p) = (m, k)` (R160). -/
def SizeNp (n : Int) (p : Real) (m k : Nat) : Prop := SizeDomain n p ∧ SizeM n p m ∧ SizeK p k

/-- What the host makes of `INIT_NP n, p` (R79): one command, or an error of its own and no command. -/
inductive HostResult where
  | command (i : Instr)
  | invalidParameter
  | capacityExceeded
  deriving DecidableEq, Repr

/-- `INIT_NP n, p` expands to a result (R79). -/
def InitNpExpands (n : Int) (p : Real) : HostResult → Prop
  | .invalidParameter => ¬ SizeDomain n p
  | .capacityExceeded => ∃ m k, SizeNp n p m k ∧ (2 ^ 32 ≤ m ∨ 2 ^ 32 ≤ k)
  | .command i =>
    ∃ m k, SizeNp n p m k ∧ m < 2 ^ 32 ∧ k < 2 ^ 32 ∧
      i = .initMk (BitVec.ofNat 32 m) (BitVec.ofNat 32 k)

end Sys2Proof.Machine
end

