-- ==== Sys2Proof/Safety.lean ====
section
/-! DEFINITION. What counts as a good state and a good run, in the terms the statements use: the invariant of
the state (spec/10_state.md R22 to R26, R32), agreement on what a command can read, a key a filter
remembers, and a stream of commands run one after another (spec/00_scope.md R6). -/

namespace Sys2Proof.Machine

/-- The invariant of every reachable state. -/
structure State.Inv (s : State) : Prop where
  /-- The cells are in canonical form. -/
  canonical : Memory.wf s.bv
  /-- Every listed cell exists (R24). -/
  inRange : ∀ c ∈ s.bv, s.hasCell c.1 c.2
  /-- `1 <= M`, `1 <= K`, `M * K <= BITS_MAX` once Initialized (R26 c). -/
  sized : s.init = true → 1 ≤ s.m.toNat ∧ 1 ≤ s.k.toNat ∧ s.m.toNat * s.k.toNat ≤ s.bitsMax.toNat
  /-- Everything is 0 while Uninitialized (R22, R23, R24, R32). -/
  unsized : s.init = false → s.m = 0 ∧ s.k = 0 ∧ s.bv = [] ∧ s.count = 0
  /-- `1 <= BITS_MAX` (R5). -/
  capacity : 1 ≤ s.bitsMax.toNat
  /-- The block can hold at least one response (R237). -/
  buffered : 1 ≤ s.rspDepth

/-- Two states a command cannot tell apart: the same `INIT`, `M`, `K`, `BV`, `COUNT`, `BITS_MAX`. -/
def SameFilter (s t : State) : Prop :=
  s.init = t.init ∧ s.m = t.m ∧ s.k = t.k ∧ s.bv = t.bv ∧ s.count = t.count ∧ s.bitsMax = t.bitsMax

/-- Every cell `ADD key` sets and `QUERY key` tests holds 1. -/
def State.remembers (s : State) (key : Key) : Prop :=
  ∀ i, 1 ≤ i → i ≤ s.k.toNat →
    s.bit (i - 1) (index (fnv32 key) (murmur32 key) i s.m.toNat) = true

/-- The host resets the block no more. -/
def State.noReset (s : State) : Prop := HostEvent.reset ∉ s.host

/-- No cell loses its 1, the sizes stay, and `COUNT` does not fall (R26). -/
def State.grewTo (s t : State) : Prop :=
  t.init = true ∧ t.m = s.m ∧ t.k = s.k ∧ s.count.toNat ≤ t.count.toNat ∧
    ∀ v idx, s.bit v idx = true → t.bit v idx = true

/-- The illegal headers, clause by clause of R76, on the header as a number. -/
def IllegalWord (h : Word) : Prop :=
  let opc := h.toNat / 2 ^ 24
  let arg := h.toNat % 2 ^ 24
  (opc = 0 ∨ 8 ≤ opc) ∨ ((opc ∈ [1, 2, 3, 4, 5, 7]) ∧ arg ≠ 0) ∨
    (opc = 6 ∧ (arg / 2 ^ 8 ≠ 0 ∨ 6 < arg % 2 ^ 8))

/-- Key byte `j` of a payload, by the formula of R73 on the payload words as numbers. -/
def payloadByte (payload : List Word) (j : Nat) : Byte :=
  BitVec.ofNat 8 ((payload.getD (j / 4) 0).toNat / 2 ^ (8 * (j % 4)))

/-- The STATUS code a command reports, row by row of the table of R205. -/
def expectedCode (s : State) : Instr → Nat
  | .initMk m k =>
    if s.init = true then 2
    else if m.toNat = 0 ∨ k.toNat = 0 then 1
    else if s.bitsMax.toNat < m.toNat * k.toNat then 4 else 0
  | .add _ => if s.init = true then 0 else 2
  | .query _ => if s.init = true then 0 else 2
  | .hashFnv _ => 0
  | .hashMur _ => 0
  | .rdreg _ => 0
  | .rdbit v idx =>
    if s.init = false then 2
    else if s.k.toNat ≤ v.toNat ∨ s.m.toNat ≤ idx.toNat then 1 else 0

/-- `n` steps of the machine, stopping at the first fault or refusal: `Host.Core.run` of the machine. -/
def run : Nat → State → Host.Outcome State Fault Refusal
  | 0, s => .next s
  | n + 1, s =>
    match step s with
    | .next t => run n t
    | .fault r => .fault r
    | .refused r => .refused r

/-- The words a list of commands is sent as, one command after another (R75). -/
def encodeAll (is : List Instr) : List Word := is.flatMap encode

end Sys2Proof.Machine
end

