-- ==== Sys2Proof/Certificates/Slice0/Obligations.lean ====
section
/-! DEFINITION. What is to be proved of the model: the numbered rules of spec/ as statements about every
state, operand and word. OBLIGATIONS.json lists them with the rules they formalise. -/

open Sys2Proof Sys2Proof.Machine

/-! ### Encoding and decoding -/

/-- Decoding the words of any command that can be sent gives it back, whatever follows it (R72, R73, R75). -/
def Obligations.DecodeOfEncode : Prop :=
  ∀ (i : Instr) (rest : List Word), WellFormed i → decode (encode i ++ rest) = .command i rest

/-- A decoded command is one that can be sent, and exactly its number of words was consumed, beginning
with its header (R72, R74, R75). -/
def Obligations.DecodingConsumesExactlyOneCommand : Prop :=
  ∀ (ws : List Word) (i : Instr) (rest : List Word), decode ws = .command i rest →
    WellFormed i ∧ ∃ used, ws = used ++ rest ∧ used.length = (encode i).length ∧
      used.head? = (encode i).head?

/-- No command is executed before all of its words are there (R75, R236). -/
def Obligations.FewerWordsAreIncomplete : Prop :=
  ∀ (i : Instr) (n : Nat), WellFormed i → n < (encode i).length →
    decode ((encode i).take n) = .incomplete

/-- R73: with `ceil4(LEN)` payload words there is one key, of `LEN` bytes, byte `j` the bits
[8(j mod 4)+7 : 8(j mod 4)] of payload word `j div 4`; every `LEN` is legal; payloads that agree on those
bytes give the same command. -/
def Obligations.KeyIsRecoveredFromPayload : Prop :=
  ∀ (len : Word) (payload rest : List Word), payload.length = (len.toNat + 3) / 4 →
    (∃ key : Key, key.length = len.toNat ∧
      (∀ j < len.toNat, key.getD j 0 = payloadByte payload j) ∧
      decode (0x02000000 :: len :: (payload ++ rest)) = .command (.add key) rest ∧
      decode (0x03000000 :: len :: (payload ++ rest)) = .command (.query key) rest ∧
      decode (0x04000000 :: len :: (payload ++ rest)) = .command (.hashFnv key) rest ∧
      decode (0x05000000 :: len :: (payload ++ rest)) = .command (.hashMur key) rest) ∧
    ∀ payload' : List Word, payload'.length = payload.length →
      (∀ j < len.toNat, payloadByte payload' j = payloadByte payload j) →
      ∀ h ∈ ([0x02000000, 0x03000000, 0x04000000, 0x05000000] : List Word),
        decode (h :: len :: (payload' ++ rest)) = decode (h :: len :: (payload ++ rest))

/-- A full payload word is the Murmur block word, and the last payload word of a key whose length is no
multiple of 4, its pad bytes 0, is the Murmur tail word (R57, R122, R124). -/
def Obligations.PayloadWordsAreMurmurWords : Prop :=
  ∀ key : Key, (packKey key).length = (key.length + 3) / 4 ∧
    (∀ b < key.length / 4, (packKey key).getD b 0 = blockword key b) ∧
    (key.length % 4 ≠ 0 → (packKey key).getD (key.length / 4) 0 = tailword key)

/-- The illegal headers are exactly those of clauses (a), (b), (c), every other header is that of one of the
seven commands; an illegal header consumes one word, changes nothing else, and is answered with its OPC and
ILLEGAL_COMMAND; the all-zero and the all-ones word are illegal (R76). That it is answered in this step,
before anything else the host does, is the model's choice (log 5). -/
def Obligations.IllegalHeadersAreAnsweredAndSkipped : Prop :=
  (∀ h : Word, ¬ IllegalWord h ↔ ∃ i, WellFormed i ∧ (encode i).head? = some h) ∧
  (∀ (s : State) (h : Word) (rest : List Word), s.cmd = h :: rest → IllegalWord h →
    step s = .next { s with
      cmd := rest
      rsp := s.rsp ++ [BitVec.ofNat 32 (h.toNat / 2 ^ 24 * 2 ^ 24 + 3), 0] }) ∧
  IllegalWord 0x00000000 ∧ IllegalWord 0xFFFFFFFF

/-- Words written out bit by bit from the spec decode to the commands they stand for (R71, R72, R80). -/
def Obligations.WrittenOutWordsDecode : Prop :=
  decode [0b00000001000000000000000000000000#32, 10, 2] = .command (.initMk 10 2) [] ∧
  decode [0b00000010000000000000000000000000#32, 1, 0x61] = .command (.add [0x61]) [] ∧
  decode [0b00000011000000000000000000000000#32, 5, 0x6C6C6568, 0xFFFFFF6F] =
    .command (.query [0x68, 0x65, 0x6C, 0x6C, 0x6F]) [] ∧
  decode [0b00000100000000000000000000000000#32, 0] = .command (.hashFnv []) [] ∧
  decode [0b00000101000000000000000000000000#32, 3, 0x00636261] =
    .command (.hashMur [0x61, 0x62, 0x63]) [] ∧
  decode [0b00000110000000000000000000000010#32] = .command (.rdreg .k) [] ∧
  decode [0b00000111000000000000000000000000#32, 1, 0] = .command (.rdbit 1 0) []

/-- Lines of the spec's assembler syntax give the words the spec prints for them (R78, R80); how blanks and
numbers are read is the model's choice (log 14). -/
def Obligations.AssemblerGivesPrintedWords : Prop :=
  assembleWords "INIT_MK  10, 2   ; from reset".toList = some [0x01000000, 0x0000000A, 0x00000002] ∧
  assembleWords "ADD \"a\"".toList = some [0x02000000, 0x00000001, 0x00000061] ∧
  assembleWords "QUERY [68 65 6C 6C 6F]".toList =
    some [0x03000000, 0x00000005, 0x6C6C6568, 0x0000006F] ∧
  assembleWords "RDREG K".toList = some [0x06000002] ∧
  assembleWords "RDBIT 0x1, 0".toList = some [0x07000000, 0x00000001, 0x00000000]

/-! ### The step -/

/-- A command all of whose words are in the channel is consumed and executed in one step, and nothing else
happens in it (R6, R75). That it is executed before anything else the host does is the model's choice
(log 5). -/
def Obligations.StepRunsDecodedCommand : Prop :=
  ∀ (s : State) (i : Instr) (rest : List Word), decode s.cmd = .command i rest →
    step s = exec i { s with cmd := rest }

/-- R236: while words of a command are missing and the host sends no word and no reset, no number of steps
answers anything, executes anything or loses a word; only response words already owed move. That waiting
is a next step, to the same state, is the model's choice (log 4). -/
def Obligations.MissingWordsAreAwaited : Prop :=
  ∀ (s : State) (n : Nat), decode s.cmd = .incomplete → (∀ e ∈ s.host, e = HostEvent.accept) →
    ∃ t, run n s = .next t ∧ t.cmd = s.cmd ∧ SameFilter s t ∧
      t.received ++ t.rsp = s.received ++ s.rsp

/-- The two channels move one word at a time, oldest first, and a move changes nothing else (R70, R240).
That the host's next event happens at once is the model's choice (log 6). -/
def Obligations.ChannelsMoveOneWord : Prop :=
  (∀ (s : State) (w : Word) (es : List HostEvent), decode s.cmd = .incomplete →
    (s.rsp.length + 1) / 2 < s.rspDepth → s.host = .word w :: es →
    step s = .next { s with cmd := s.cmd ++ [w], host := es }) ∧
  (∀ (s : State) (w : Word) (rsp : List Word) (es : List HostEvent), decode s.cmd = .incomplete →
    s.rsp = w :: rsp → s.host = .accept :: es →
    step s = .next { s with rsp := rsp, received := s.received ++ [w], host := es })

/-- A block that holds as many responses as it can accepts no command word; a response word the host accepts
moves although a command word waits before it, and when that makes room the waiting command word is accepted
next (R237). That a block in which nothing can happen answers the same state, when a response stops being
held, and how the host's two channels share one list of events are the model's choices (log 4, log 3,
log 6). -/
def Obligations.FullResponseBufferStallsCommands : Prop :=
  (∀ (s : State), decode s.cmd = .incomplete → s.rspDepth ≤ (s.rsp.length + 1) / 2 →
    (∀ e ∈ s.host, ∃ w, e = HostEvent.word w) → step s = .next s) ∧
  (∀ (s : State) (w r : Word) (rsp : List Word) (es : List HostEvent), decode s.cmd = .incomplete →
    s.rspDepth ≤ (s.rsp.length + 1) / 2 → s.rsp = r :: rsp → s.host = .word w :: .accept :: es →
    step s = .next { s with
      rsp := rsp, received := s.received ++ [r], host := .word w :: es } ∧
    ((rsp.length + 1) / 2 < s.rspDepth →
      run 2 s = .next { s with
        cmd := s.cmd ++ [w], rsp := rsp, received := s.received ++ [r], host := es }))

/-- The words of a command that the host sends to an empty channel are transferred one a step and then the
command is executed, before anything else the host does (R7, R75). When exactly a word is accepted and that
the command comes before the host's later events are the model's choices (log 3, log 5, log 6). -/
def Obligations.DeliveredCommandIsExecuted : Prop :=
  ∀ (i : Instr) (s : State) (es : List HostEvent), WellFormed i → s.cmd = [] →
    (s.rsp.length + 1) / 2 < s.rspDepth → s.host = (encode i).map HostEvent.word ++ es →
    run (encode i).length s = .next { s with cmd := encode i, host := es } ∧
    run ((encode i).length + 1) s = exec i { s with host := es }

/-- A reset event, whatever the block holds, half a command or responses not yet transferred, leaves the
state after reset; `BITS_MAX` and the buffering depth are hardwired (R230, R231, R232). That the pending
reset happens in this step, between commands, is the model's choice (log 5, log 6). -/
def Obligations.ResetEventResetsTheBlock : Prop :=
  ∀ (s : State) (es : List HostEvent), decode s.cmd = .incomplete → s.host = .reset :: es →
    ∃ t, step s = .next t ∧ t.init = false ∧ t.m = 0 ∧ t.k = 0 ∧ t.count = 0 ∧ t.bv = [] ∧
      t.cmd = [] ∧ t.rsp = [] ∧ t.bitsMax = s.bitsMax ∧ t.rspDepth = s.rspDepth ∧
      t.host = es ∧ t.received = s.received

/-- `INIT` is 0 after reset; it goes from 0 to 1 only in a successful `INIT_MK`, and from 1 to 0 only in a
reset event: the step takes one pending reset from the host's events and leaves the state after reset (R21).
That a reset happens only while no command is complete is the model's choice (log 5), and that events before
it may still be pending is too (log 6). -/
def Obligations.LifecycleTransitions : Prop :=
  State.reset.init = false ∧
  (∀ s t : State, step s = .next t → s.init = false → t.init = true →
    ∃ m k rest, decode s.cmd = .command (.initMk m k) rest ∧ t.m = m ∧ t.k = k ∧
      t.rsp = s.rsp ++ [0x01000000, 0]) ∧
  (∀ s t : State, step s = .next t → s.init = true → t.init = false →
    decode s.cmd = .incomplete ∧ ∃ before after, s.host = before ++ HostEvent.reset :: after ∧
      t = { s with
        init := false, m := 0, k := 0, bv := [], count := 0, cmd := [], rsp := [],
        host := before ++ after })

/-- The state after reset: Uninitialized, `M`, `K`, `COUNT` 0, no cells, the decoder at a command boundary,
no response owed (R32, R230). -/
def Obligations.StateAfterReset : Prop :=
  State.reset.init = false ∧ State.reset.m = 0 ∧ State.reset.k = 0 ∧ State.reset.count = 0 ∧
    State.reset.bv = [] ∧ State.reset.cmd = [] ∧ State.reset.rsp = []

/-! ### Arithmetic -/

/-- R9: the five 32-bit primitives on natural numbers; the rotate moves bit `j` to bit `(j + r) mod 32`; the
index derivation is on natural numbers and does not wrap. -/
def Obligations.ArithmeticPrimitives : Prop :=
  (∀ a b : Word, (xor32 a b).toNat = a.toNat ^^^ b.toNat ∧
    (mul32 a b).toNat = a.toNat * b.toNat % 2 ^ 32 ∧
    (add32 a b).toNat = (a.toNat + b.toNat) % 2 ^ 32) ∧
  (∀ (a : Word) (r : Nat), 0 < r → r < 32 →
    (shr32 a r).toNat = a.toNat / 2 ^ r ∧
    (rotl32 a r).toNat = a.toNat * 2 ^ r % 2 ^ 32 + a.toNat / 2 ^ (32 - r) ∧
    ∀ j < 32, (rotl32 a r).getLsbD ((j + r) % 32) = a.getLsbD j) ∧
  (∀ (f g : Word) (i m : Nat), 2 < i → index f g i m = (f.toNat + g.toNat * i) % m)

/-! ### Hash32-FNV -/

/-- The engine takes one byte at a time: starting from the offset basis, it exclusive-ors the byte in and
then multiplies by the prime (R100, R101, R102). -/
def Obligations.FnvTakesOneByteAtATime : Prop :=
  fnv32 [] = 2166136261 ∧
  ∀ (key : Key) (b : Byte),
    (fnv32 (key ++ [b])).toNat = ((fnv32 key).toNat ^^^ b.toNat) * 16777619 % 2 ^ 32

/-- Reducing modulo 2^32 at every multiplication or only at the end gives the same hash (R101). -/
def Obligations.FnvMayReduceAtTheEnd : Prop :=
  ∀ key : Key,
    (fnv32 key).toNat = key.foldl (fun acc b => (acc ^^^ b.toNat) * 16777619) 2166136261 % 2 ^ 32

/-- The values the spec gives for the empty key, one byte, and three (R103, R104, R107). -/
def Obligations.FnvKnownValues : Prop :=
  fnv32 [] = 0x811C9DC5 ∧ fnv32 [0x61] = 0xE40C292C ∧ fnv32 [0x61, 0x62] = 0x4D2505CA ∧
    fnv32 [0x61, 0x62, 0x63] = 0x1A47E90B ∧ fnv32 [0xFF] = 0x7A0B824E

/-- `HASH_FNV` answers the hash in either lifecycle state and writes nothing (R106). -/
def Obligations.HashFnvResponds : Prop :=
  ∀ (key : Key) (s : State),
    exec (.hashFnv key) s = .next { s with rsp := s.rsp ++ [0x04000000, fnv32 key] }

/-! ### Hash32-Murmur -/

/-- R127: the streaming form over the working registers gives the value of the function for every key. -/
def Obligations.MurmurStreamEqualsFunction : Prop :=
  ∀ key : Key, murmurStream key = murmur32 key

/-- Executing the tail path of a key with no tail bytes, or skipping it, is the same (R124, R125). -/
def Obligations.MurmurTailPathMayAlwaysRun : Prop :=
  ∀ (h : Word) (key : Key), tailmix h key = xor32 h (scramble (tailword key))

/-- The values the spec gives: the empty key, a tail only, a block only, a block and a tail (R128, R131). -/
def Obligations.MurmurKnownValues : Prop :=
  murmur32 [] = 0 ∧ murmur32 [0x61] = 0x3C2569B2 ∧
    murmur32 [0x61, 0x62, 0x63, 0x64] = 0x43ED676A ∧
    murmur32 [0x61, 0x62, 0x63, 0x64, 0x65, 0x66, 0x67] = 0x883C9B06 ∧
    murmur32 [0xFF, 0xFF, 0xFF] = 0xBF12A026

/-- `HASH_MUR` answers the hash in either lifecycle state and writes nothing (R130). -/
def Obligations.HashMurResponds : Prop :=
  ∀ (key : Key) (s : State),
    exec (.hashMur key) s = .next { s with rsp := s.rsp ++ [0x05000000, murmur32 key] }

/-! ### The round index -/

/-- R152: every index lies in `[0, m)`, and is 0 when `m = 1`. -/
def Obligations.IndexLiesInRange : Prop :=
  ∀ (f g : Word) (i m : Nat), 1 ≤ i → 1 ≤ m →
    index f g i m < m ∧ (m = 1 → index f g i m = 0)

/-- The three branches, and that the sum of the third never leaves 64 bits, so that a 64-bit unsigned
datapath computes it exactly (R150, R151). -/
def Obligations.IndexBranchesAreExact : Prop :=
  ∀ (f g : Word) (i m : Nat), 1 ≤ i → i < 2 ^ 32 → 1 ≤ m →
    (i = 1 → index f g i m = f.toNat % m) ∧ (i = 2 → index f g i m = g.toNat % m) ∧
    f.toNat + g.toNat * i ≤ 2 ^ 64 - 2 ^ 32 ∧
    (2 < i → index f g i m =
      (f.setWidth 64 + g.setWidth 64 * BitVec.ofNat 64 i : DWord).toNat % m)


/-! ### INIT_MK -/

/-- R33: what a successful `INIT_MK` leaves, and that every `QUERY` right after it answers 0. -/
def Obligations.InitMkConstructsFilter : Prop :=
  ∀ (m k : Word) (s : State), s.init = false → 1 ≤ m.toNat → 1 ≤ k.toNat →
    m.toNat * k.toNat ≤ s.bitsMax.toNat →
    ∃ t, exec (.initMk m k) s = .next t ∧
      t = { s with
        init := true, m := m, k := k, bv := t.bv, count := 0, rsp := s.rsp ++ [0x01000000, 0] } ∧
      (∀ v idx, t.bit v idx = false) ∧
      ∀ key, exec (.query key) t = .next { t with rsp := t.rsp ++ [0x03000000, 0] }

/-- The errors of `INIT_MK`, in the order state, parameter, capacity, each leaving everything as it was
(R154, R205). -/
def Obligations.InitMkErrors : Prop :=
  (∀ (m k : Word) (s : State), s.init = true →
    exec (.initMk m k) s = .next { s with rsp := s.rsp ++ [0x01000002, 0] }) ∧
  (∀ (m k : Word) (s : State), s.init = false → m = 0 ∨ k = 0 →
    exec (.initMk m k) s = .next { s with rsp := s.rsp ++ [0x01000001, 0] }) ∧
  (∀ (m k : Word) (s : State), s.init = false → m ≠ 0 → k ≠ 0 →
    s.bitsMax.toNat < m.toNat * k.toNat →
    exec (.initMk m k) s = .next { s with rsp := s.rsp ++ [0x01000004, 0] })

/-! ### ADD and QUERY -/

/-- `ADD` on an Initialized filter sets exactly one cell in each of the `K` vectors, bit
`index(fnv, murmur, v + 1, M)` of vector `v`, counts one more, saturating, and changes nothing else: every
other cell reads as before (R25, R155). -/
def Obligations.AddSetsOneCellInEachVector : Prop :=
  ∀ (key : Key) (s : State), s.init = true → 1 ≤ s.m.toNat →
    ∃ t, exec (.add key) s = .next t ∧
      t = { s with bv := t.bv, count := t.count, rsp := s.rsp ++ [0x02000000, 0] } ∧
      t.count.toNat = min (s.count.toNat + 1) (2 ^ 64 - 1) ∧
      ∀ v idx, t.bit v idx = (s.bit v idx ||
        decide (v < s.k.toNat ∧ idx = index (fnv32 key) (murmur32 key) (v + 1) s.m.toNat))

/-- Adding a key a second time changes no bit and still counts (R53, R155). -/
def Obligations.AddAgainChangesNoBit : Prop :=
  ∀ (key : Key) (s t : State), s.Inv → s.init = true → exec (.add key) s = .next t →
    ∃ u, exec (.add key) t = .next u ∧ u.bv = t.bv ∧
      u.count.toNat = min (t.count.toNat + 1) (2 ^ 64 - 1)

/-- `QUERY` on an Initialized filter answers 1 exactly when the bit of every round is set, and changes
nothing (R156, R157). -/
def Obligations.QueryIsTheConjunctionOfRounds : Prop :=
  ∀ (key : Key) (s : State), s.init = true → 1 ≤ s.m.toNat →
    ∃ b : Bool, exec (.query key) s =
        .next { s with rsp := s.rsp ++ [0x03000000, if b then 1 else 0] } ∧
      (b = true ↔ ∀ i, 1 ≤ i → i ≤ s.k.toNat →
        s.bit (i - 1) (index (fnv32 key) (murmur32 key) i s.m.toNat) = true)

/-- R164: with every cell 0, `QUERY` answers 0 for every key, `K >= 1` and `M >= 1`. -/
def Obligations.EmptyFilterAnswersNo : Prop :=
  ∀ (key : Key) (s : State), s.init = true → 1 ≤ s.m.toNat → 1 ≤ s.k.toNat →
    (∀ v idx, s.hasCell v idx → s.bit v idx = false) →
    exec (.query key) s = .next { s with rsp := s.rsp ++ [0x03000000, 0] }

/-- R159: once `ADD key` has answered OK, every later `QUERY key` answers 1, whatever commands ran between,
as long as there was no reset. -/
def Obligations.NoFalseNegatives : Prop :=
  ∀ (key : Key) (s t u : State) (n : Nat), s.Inv → exec (.add key) s = .next t →
    t.rsp = s.rsp ++ [0x02000000, 0] → t.noReset → run n t = .next u →
    exec (.query key) u = .next { u with rsp := u.rsp ++ [0x03000000, 1] }

/-- R202: the four commands that can find the filter in the wrong lifecycle state answer INVALID_STATE and
change nothing. -/
def Obligations.InvalidStateIsReported : Prop :=
  (∀ (key : Key) (s : State), s.init = false →
    exec (.add key) s = .next { s with rsp := s.rsp ++ [0x02000002, 0] } ∧
    exec (.query key) s = .next { s with rsp := s.rsp ++ [0x03000002, 0] }) ∧
  (∀ (v idx : Word) (s : State), s.init = false →
    exec (.rdbit v idx) s = .next { s with rsp := s.rsp ++ [0x07000002, 0] }) ∧
  (∀ (m k : Word) (s : State), s.init = true →
    exec (.initMk m k) s = .next { s with rsp := s.rsp ++ [0x01000002, 0] })

/-! ### Bit-vector memory -/

/-- A cell reads what was last written to it and every other cell reads as before (R51). -/
def Obligations.CellReadsWhatWasWritten : Prop :=
  ∀ (s : State) (v idx : Nat) (b : Bool), s.hasCell v idx →
    ∃ t, memWrite s v idx b = .ok t ∧ memRead t v idx = .ok b ∧
      ∀ v' idx', (v', idx') ≠ (v, idx) → memRead t v' idx' = memRead s v' idx'

/-- The `K` writes of an `ADD` may be made in any order: any two writes of 1 commute (R158). -/
def Obligations.WritesOfOneCommute : Prop :=
  ∀ (s : State) (v idx v' idx' : Nat), Memory.wf s.bv →
    (s.setBit v idx true).setBit v' idx' true = (s.setBit v' idx' true).setBit v idx true

/-- Two memories in canonical form that read the same everywhere are the same (R51, R52). -/
def Obligations.CanonicalMemoryIsItsReads : Prop :=
  ∀ mem mem' : Memory, Memory.wf mem → Memory.wf mem' →
    (∀ c, Memory.read mem c = Memory.read mem' c) → mem = mem'

/-! ### RDREG and RDBIT -/

/-- `RDREG` answers the register in either lifecycle state and changes nothing (R31, R190). -/
def Obligations.RdregReadsTheRegister : Prop :=
  ∀ s : State,
    exec (.rdreg .state) s =
      .next { s with rsp := s.rsp ++ [0x06000000, if s.init then 1 else 0] } ∧
    exec (.rdreg .m) s = .next { s with rsp := s.rsp ++ [0x06000000, s.m] } ∧
    exec (.rdreg .k) s = .next { s with rsp := s.rsp ++ [0x06000000, s.k] } ∧
    exec (.rdreg .countLo) s =
      .next { s with rsp := s.rsp ++ [0x06000000, BitVec.ofNat 32 (s.count.toNat % 2 ^ 32)] } ∧
    exec (.rdreg .countHi) s =
      .next { s with rsp := s.rsp ++ [0x06000000, BitVec.ofNat 32 (s.count.toNat / 2 ^ 32)] } ∧
    exec (.rdreg .capLo) s =
      .next { s with rsp := s.rsp ++ [0x06000000, BitVec.ofNat 32 (s.bitsMax.toNat % 2 ^ 32)] } ∧
    exec (.rdreg .capHi) s =
      .next { s with rsp := s.rsp ++ [0x06000000, BitVec.ofNat 32 (s.bitsMax.toNat / 2 ^ 32)] }

/-- `RDBIT` of a cell that exists answers its bit and changes nothing (R191). -/
def Obligations.RdbitReadsTheCell : Prop :=
  ∀ (v idx : Word) (s : State), s.init = true → v.toNat < s.k.toNat → idx.toNat < s.m.toNat →
    exec (.rdbit v idx) s = .next { s with
      rsp := s.rsp ++ [0x07000000, if s.bit v.toNat idx.toNat then 1 else 0] }

/-- `RDBIT` of a cell that does not exist answers INVALID_PARAMETER and changes nothing (R191, R201). -/
def Obligations.RdbitOutOfRange : Prop :=
  ∀ (v idx : Word) (s : State), s.init = true → s.k.toNat ≤ v.toNat ∨ s.m.toNat ≤ idx.toNat →
    exec (.rdbit v idx) s = .next { s with rsp := s.rsp ++ [0x07000001, 0] }

/-! ### Responses and errors -/

/-- Every command answers exactly two words after those already owed: its OPC in [31:24], zeros in [23:8],
one of the five STATUS codes in [7:0], and a VALUE that is 0 for every error (R77, R200). -/
def Obligations.EveryCommandAnswersTwoWords : Prop :=
  ∀ (i : Instr) (s t : State), exec i s = .next t →
    ∃ (code : Nat) (value : Word), code ≤ 4 ∧ (code ≠ 0 → value = 0) ∧
      t.rsp = s.rsp ++ [BitVec.ofNat 32 ((opcodeOf i).toNat * 2 ^ 24 + code), value]

/-- The STATUS a command reports is the first condition that holds in the order of the table of R205; it is
reported in every state where an Initialized filter has `M >= 1`. -/
def Obligations.FirstConditionIsReported : Prop :=
  ∀ (i : Instr) (s : State), (s.init = true → 1 ≤ s.m.toNat) →
    ∃ (t : State) (value : Word), exec i s = .next t ∧
      t.rsp = s.rsp ++ [BitVec.ofNat 32 ((opcodeOf i).toNat * 2 ^ 24 + expectedCode s i), value]

/-- A command that answers an error has changed nothing but the response channel (R206, R207). -/
def Obligations.ErrorsChangeNothing : Prop :=
  ∀ (i : Instr) (s t : State) (w value : Word), exec i s = .next t →
    t.rsp = s.rsp ++ [w, value] → w.toNat % 2 ^ 8 ≠ 0 → t = { s with rsp := s.rsp ++ [w, 0] }

/-! ### Frames -/

/-- R54: `QUERY`, `RDBIT`, `RDREG`, `HASH_FNV` and `HASH_MUR` change no state, whatever they answer, and
repeating one in any state with the same filter, which only an `ADD`, an `INIT_MK` or a reset could have
changed, gives the same response. -/
def Obligations.ReadsHaveNoSideEffects : Prop :=
  ∀ (i : Instr) (s t : State),
    ((∃ key, i = .query key) ∨ (∃ v idx, i = .rdbit v idx) ∨ (∃ r, i = .rdreg r) ∨
      (∃ key, i = .hashFnv key) ∨ ∃ key, i = .hashMur key) →
    exec i s = .next t →
    ∃ response, t = { s with rsp := s.rsp ++ response } ∧
      ∀ u, SameFilter s u → exec i u = .next { u with rsp := u.rsp ++ response }

/-- The frame of `INIT_MK`: whatever it answers, the parameters, the command channel and the host's side are
unchanged, and on an Initialized filter so is everything but the response channel (R154, R206). -/
def Obligations.InitMkFrame : Prop :=
  ∀ (m k : Word) (s t : State), exec (.initMk m k) s = .next t →
    t.bitsMax = s.bitsMax ∧ t.rspDepth = s.rspDepth ∧ t.cmd = s.cmd ∧ t.host = s.host ∧
      t.received = s.received ∧
      (s.init = true → t.init = true ∧ t.m = s.m ∧ t.k = s.k ∧ t.bv = s.bv ∧ t.count = s.count)

/-- The frame of `ADD`: whatever it answers, all is unchanged but `COUNT`, the response channel and the cells
it addresses, which are those of the rounds `1 .. K`; every other cell reads as before (R53, R155). -/
def Obligations.AddFrame : Prop :=
  ∀ (key : Key) (s t : State), exec (.add key) s = .next t →
    t = { s with bv := t.bv, count := t.count, rsp := t.rsp } ∧
    ∀ v idx, (∀ i, 1 ≤ i → i ≤ s.k.toNat →
        (v, idx) ≠ (i - 1, index (fnv32 key) (murmur32 key) i s.m.toNat)) →
      t.bit v idx = s.bit v idx

/-- The parameters `BITS_MAX` and the buffering depth are hardwired: no step changes them (R31, R237). -/
def Obligations.ParametersAreNeverWritten : Prop :=
  ∀ s t : State, step s = .next t → t.bitsMax = s.bitsMax ∧ t.rspDepth = s.rspDepth

/-- A command sees only `INIT`, `M`, `K`, `BV`, `COUNT` and `BITS_MAX`: two states that agree on them give the
same response and agree on them again (R20, R165). -/
def Obligations.CommandsSeeOnlyTheFilter : Prop :=
  ∀ (i : Instr) (s s' t : State), SameFilter s s' → exec i s = .next t →
    ∃ (t' : State) (response : List Word), exec i s' = .next t' ∧ SameFilter t t' ∧
      t.rsp = s.rsp ++ response ∧ t'.rsp = s'.rsp ++ response

/-- No response word is dropped or reordered while there is no reset: the response stream, transferred and
still owed, only grows at its end (R63, R237). The record of what was transferred is the model's own field
(log 1). -/
def Obligations.ResponsesAreNeverDropped : Prop :=
  ∀ s t : State, step s = .next t → s.noReset →
    ∃ more, t.received ++ t.rsp = (s.received ++ s.rsp) ++ more

/-! ### Invariants and whole runs -/

/-- The state after reset is well-formed (R26, R32). The values of `BITS_MAX` and of the buffering depth in it
are the model's choice (log 2, log 3). -/
def Obligations.ResetIsWellFormed : Prop := State.reset.Inv

/-- Every step from a well-formed state, host events and reset included, leads to one (R22 to R26). -/
def Obligations.StepKeepsInvariant : Prop :=
  ∀ s t : State, s.Inv → step s = .next t → t.Inv

/-- No bit-vector access leaves the vectors, so no number of steps from a well-formed state ends in a fault
or a refusal (R7, R51, R152). That a block that waits answers a next state is the model's choice (log 4). -/
def Obligations.WellFormedStatesNeverStop : Prop :=
  ∀ (s : State) (n : Nat), s.Inv → ∃ t, run n s = .next t ∧ t.Inv

/-- R26: once Initialized and as long as there is no reset, `M` and `K` stay, `M * K` fits, no bit is cleared
and `COUNT` does not fall, over any number of steps. -/
def Obligations.FilterOnlyGrows : Prop :=
  ∀ (s t : State) (n : Nat), s.Inv → s.init = true → s.noReset → run n s = .next t →
    s.grewTo t ∧ 1 ≤ t.m.toNat ∧ 1 ≤ t.k.toNat ∧ t.m.toNat * t.k.toNat ≤ t.bitsMax.toNat

/-- A stream of commands that ends at a command boundary is executed to its end, one command a step, in
order, with two response words each, and the channel is empty then (R6, R7, R63, R241). That execution does
not wait for room in the response channel, nor for the host, is the model's choice (log 3, log 5). -/
def Obligations.CommandStreamRunsToItsEnd : Prop :=
  ∀ (is : List Instr) (s : State), s.Inv → (∀ i ∈ is, WellFormed i) → s.cmd = encodeAll is →
    ∃ t, run is.length s = .next t ∧ t.Inv ∧ t.cmd = [] ∧ t.host = s.host ∧
      t.rsp.length = s.rsp.length + 2 * is.length

/-! ### Sizing on the host -/

/-- `size_np` is a function of legal inputs, on exact reals, and both of its results are at least 1; it has
none for other inputs (R160). -/
def Obligations.SizingIsTotalAndPositive : Prop :=
  (∀ (n : Int) (p : Real), SizeDomain n p → ∃ m k, SizeNp n p m k) ∧
  (∀ (n : Int) (p : Real) (m k m' k' : Nat), SizeNp n p m k → SizeNp n p m' k' →
    m = m' ∧ k = k' ∧ 1 ≤ m ∧ 1 ≤ k) ∧
  (∀ (n : Int) (p : Real) (m k : Nat), SizeNp n p m k → 1 ≤ n ∧ 0 < p ∧ p < 1)

/-- R162: for fixed `n`, decreasing `p` never decreases `m` or `k`. -/
def Obligations.SizingIsMonotone : Prop :=
  ∀ (n : Int) (p q : Real) (m k m' k' : Nat), q ≤ p → SizeNp n p m k → SizeNp n q m' k' →
    m ≤ m' ∧ k ≤ k'

/-- Where `log2(1/p)` is the integer `j`, `k` is `j + 1`, the floor and one more, not the ceiling `j`: 2, 3, 4
for `p` = 0.5, 0.25, 0.125 (R160). -/
def Obligations.SizingAddsOneToAnInteger : Prop :=
  ∀ (n : Int) (j m k : Nat), SizeNp n ((1 / 2 : Real) ^ j) m k → k = j + 1

/-- `INIT_NP n, p` has exactly one outcome on the host. It is an error of the host exactly when an input is out
of range, InvalidParameter, or when a size does not fit 32 bits, CapacityExceeded; else it is `INIT_MK` with
the sizes `size_np` gives, which the block answers with OK, INVALID_STATE or CAPACITY_EXCEEDED, never with
INVALID_PARAMETER (R79, R160). That the sizes are those of exact reals is the model's choice (log 11). -/
def Obligations.InitNpExpandsToOneCommand : Prop :=
  (∀ (n : Int) (p : Real), ∃ r, InitNpExpands n p r ∧ ∀ r', InitNpExpands n p r' → r' = r) ∧
  (∀ (n : Int) (p : Real), InitNpExpands n p .invalidParameter ↔ ¬ (1 ≤ n ∧ 0 < p ∧ p < 1)) ∧
  (∀ (n : Int) (p : Real), InitNpExpands n p .capacityExceeded ↔
    (1 ≤ n ∧ 0 < p ∧ p < 1) ∧ ∀ m k : Nat, SizeNp n p m k → ¬ (m < 2 ^ 32 ∧ k < 2 ^ 32)) ∧
  (∀ (n : Int) (p : Real) (i : Instr), InitNpExpands n p (.command i) ↔
    ∃ m k : Word, i = .initMk m k ∧ SizeNp n p m.toNat k.toNat) ∧
  (∀ (n : Int) (p : Real) (i : Instr) (s : State), InitNpExpands n p (.command i) →
    ∃ (t : State) (w : Word), exec i s = .next t ∧ t.rsp = s.rsp ++ [w, 0] ∧
      w ∈ [0x01000000, 0x01000002, 0x01000004])
end

