-- ==== Sys2Proof/Laws/PerInstr.lean ====
section
/-! SUPPORT. What holds of every command as syntax: the shape of its words (spec/30_encoding.md R71, R72). -/

namespace Sys2Proof.Laws.EncodeShape

/-- The operand words after the header, as the table of R72 counts them. -/
def operandWords : Instr → Nat
  | .initMk _ _ => 2
  | .add key => 1 + ceil4 key.length
  | .query key => 1 + ceil4 key.length
  | .hashFnv key => 1 + ceil4 key.length
  | .hashMur key => 1 + ceil4 key.length
  | .rdreg _ => 0
  | .rdbit _ _ => 2

/-- The first word carries the opcode in bits [31:24], and the table's number of words follows. -/
def Statement (i : Instr) : Prop :=
  ∃ h tail, encode i = h :: tail ∧ opcOf h = opcodeOf i ∧ tail.length = operandWords i

/-- A key of `n` bytes is packed into `ceil4 n` words (R73). -/
theorem packKey_length : ∀ key : Key, (packKey key).length = ceil4 key.length
  | [] => by simp [packKey, ceil4]
  | [_] => by simp [packKey, ceil4]
  | [_, _] => by simp [packKey, ceil4]
  | [_, _, _] => by simp [packKey, ceil4]
  | _ :: _ :: _ :: _ :: rest => by
    have ih := packKey_length rest
    simp only [packKey, List.length_cons, ih, ceil4]
    omega

/-- The opcode field of a header word is the opcode it was made with (R71). -/
theorem opcOf_headerWord (opc : Byte) (arg : BitVec 24) : opcOf (headerWord opc arg) = opc := by
  ext j hj
  simp [opcOf, headerWord, show j < 8 from hj, show 24 + j < 32 by omega]

/-- The shape of a key command's words. -/
theorem encodeKey_shape (opc : Byte) (key : Key) :
    ∃ h tail, encodeKey opc key = h :: tail ∧ opcOf h = opc ∧ tail.length = 1 + ceil4 key.length := by
  refine ⟨_, _, rfl, ?_, ?_⟩
  · exact opcOf_headerWord opc 0
  · rw [List.length_cons, packKey_length]; omega

theorem initMk (m k : Word) : Statement (.initMk m k) :=
  ⟨_, _, rfl, rfl, rfl⟩

theorem add (key : Key) : Statement (.add key) := encodeKey_shape 0x02 key

theorem query (key : Key) : Statement (.query key) := encodeKey_shape 0x03 key

theorem hashFnv (key : Key) : Statement (.hashFnv key) := encodeKey_shape 0x04 key

theorem hashMur (key : Key) : Statement (.hashMur key) := encodeKey_shape 0x05 key

theorem rdreg (r : CtrlReg) : Statement (.rdreg r) := by
  cases r <;> exact ⟨_, _, rfl, by decide, rfl⟩

theorem rdbit (v idx : Word) : Statement (.rdbit v idx) :=
  ⟨_, _, rfl, rfl, rfl⟩

end Sys2Proof.Laws.EncodeShape
end

