-- ==== Sys2Proof/Laws/Decode.lean ====
section
/-! SUPPORT. The decoder's parts: header fields, byte lanes, and what each header leads to
(spec/30_encoding.md R71 to R76). -/

namespace Sys2Proof

/-- The opcode field of a header word (R71). -/
@[simp] theorem opcOf_headerWord (opc : Byte) (arg : BitVec 24) : opcOf (headerWord opc arg) = opc :=
  Laws.EncodeShape.opcOf_headerWord opc arg

/-- The argument field of a header word (R71). -/
@[simp] theorem argOf_headerWord (opc : Byte) (arg : BitVec 24) : argOf (headerWord opc arg) = arg := by
  ext j hj
  simp [argOf, headerWord, show j < 24 from hj, show j < 32 by omega]

/-- The control register with a register's number is that register (R31). -/
@[simp] theorem ctrlRegOf_number (r : CtrlReg) : ctrlRegOf (ctrlRegNumber r) = some r := by
  cases r <;> rfl

/-- A header word is its two fields (R71). -/
theorem eq_headerWord (h : Word) (opc : Byte) (arg : BitVec 24) (h1 : opcOf h = opc)
    (h2 : argOf h = arg) : h = headerWord opc arg := by
  subst h1 h2
  apply BitVec.eq_of_getLsbD_eq
  intro j hj
  by_cases h24 : j < 24
  · simp [headerWord, opcOf, argOf, hj, h24]
  · simp [headerWord, opcOf, argOf, hj, h24, show j - 24 < 8 by omega, show 24 + (j - 24) = j by omega]

/-! ### The seven headers (R72), the literals in simp's own form -/

@[simp] theorem readHeader_initMk : readHeader (headerWord 1#8 0#24) = .initMk := by decide

@[simp] theorem readHeader_add : readHeader (headerWord 2#8 0#24) = .add := by decide

@[simp] theorem readHeader_query : readHeader (headerWord 3#8 0#24) = .query := by decide

@[simp] theorem readHeader_hashFnv : readHeader (headerWord 4#8 0#24) = .hashFnv := by decide

@[simp] theorem readHeader_hashMur : readHeader (headerWord 5#8 0#24) = .hashMur := by decide

@[simp] theorem readHeader_rdreg (r : CtrlReg) :
    readHeader (headerWord 6#8 ((ctrlRegNumber r).setWidth 24)) = .rdreg r := by
  cases r <;> decide

@[simp] theorem readHeader_rdbit : readHeader (headerWord 7#8 0#24) = .rdbit := by decide

/-- A header with a plain opcode is illegal, or is that opcode with nothing else (R76 b). -/
theorem plainHeader_cases (h : Word) (x : Header) (n : Nat) (hn : n < 256) (ho : (opcOf h).toNat = n) :
    plainHeader h x = .illegal .nonzeroArg ∨
      (plainHeader h x = x ∧ h = headerWord (BitVec.ofNat 8 n) 0) := by
  unfold plainHeader
  split_ifs with h1
  · refine .inr ⟨rfl, eq_headerWord _ _ _ ?_ h1⟩
    apply BitVec.eq_of_toNat_eq
    simp [ho]; omega
  · exact .inl rfl

/-- A register number that names a register is that register's number (R31). -/
theorem ctrlRegOf_eq_some (c : Byte) (r : CtrlReg) (h : ctrlRegOf c = some r) :
    c = ctrlRegNumber r := by
  unfold ctrlRegOf at h
  apply BitVec.eq_of_toNat_eq
  split at h <;>
    first
      | (simp only [Option.some.injEq] at h; subst h; rename_i hc; rw [hc]; rfl)
      | simp at h

/-- A header of `RDREG` is illegal, or is that of a register (R76 c). -/
theorem rdregHeader_cases (h : Word) (ho : (opcOf h).toNat = 6) :
    (∃ why, rdregHeader h = .illegal why) ∨
      ∃ r, rdregHeader h = .rdreg r ∧ h = headerWord 0x06 ((ctrlRegNumber r).setWidth 24) := by
  unfold rdregHeader
  split_ifs with h1
  · split
    · rename_i r hr
      refine .inr ⟨r, rfl, eq_headerWord _ _ _ (BitVec.eq_of_toNat_eq (by simp [ho])) ?_⟩
      rw [← ctrlRegOf_eq_some _ _ hr]
      apply BitVec.eq_of_getLsbD_eq
      intro j hj
      by_cases h8 : j < 8
      · simp [argOf, hj, h8]
      · have hz : (h.extractLsb' 8 16).getLsbD (j - 8) = false := by rw [h1]; simp
        rw [BitVec.getLsbD_extractLsb'] at hz
        simp only [show 8 + (j - 8) = j by omega] at hz
        simpa [argOf, hj, h8, show j - 8 < 16 by omega] using hz
    · exact .inl ⟨_, rfl⟩
  · exact .inl ⟨_, rfl⟩

/-- Every header is illegal or that of one of the seven commands (R76). -/
theorem readHeader_cases (h : Word) :
    (∃ why, readHeader h = .illegal why) ∨
      (readHeader h = .initMk ∧ h = headerWord 0x01 0) ∨
      (readHeader h = .add ∧ h = headerWord 0x02 0) ∨
      (readHeader h = .query ∧ h = headerWord 0x03 0) ∨
      (readHeader h = .hashFnv ∧ h = headerWord 0x04 0) ∨
      (readHeader h = .hashMur ∧ h = headerWord 0x05 0) ∨
      (∃ r, readHeader h = .rdreg r ∧ h = headerWord 0x06 ((ctrlRegNumber r).setWidth 24)) ∨
      (readHeader h = .rdbit ∧ h = headerWord 0x07 0) := by
  unfold readHeader
  split
  · rename_i ho
    rcases plainHeader_cases h .initMk 1 (by omega) ho with e | e
    · exact .inl ⟨_, e⟩
    · exact .inr (.inl e)
  · rename_i ho
    rcases plainHeader_cases h .add 2 (by omega) ho with e | e
    · exact .inl ⟨_, e⟩
    · exact .inr (.inr (.inl e))
  · rename_i ho
    rcases plainHeader_cases h .query 3 (by omega) ho with e | e
    · exact .inl ⟨_, e⟩
    · exact .inr (.inr (.inr (.inl e)))
  · rename_i ho
    rcases plainHeader_cases h .hashFnv 4 (by omega) ho with e | e
    · exact .inl ⟨_, e⟩
    · exact .inr (.inr (.inr (.inr (.inl e))))
  · rename_i ho
    rcases plainHeader_cases h .hashMur 5 (by omega) ho with e | e
    · exact .inl ⟨_, e⟩
    · exact .inr (.inr (.inr (.inr (.inr (.inl e)))))
  · rename_i ho
    rcases rdregHeader_cases h ho with e | e
    · exact .inl e
    · exact .inr (.inr (.inr (.inr (.inr (.inr (.inl e))))))
  · rename_i ho
    rcases plainHeader_cases h .rdbit 7 (by omega) ho with e | e
    · exact .inl ⟨_, e⟩
    · exact .inr (.inr (.inr (.inr (.inr (.inr (.inr e))))))
  · exact .inl ⟨_, rfl⟩

/-- The byte lanes of a packed word are the bytes it was packed from (R57). -/
theorem wordBytes_packWord (b0 b1 b2 b3 : Byte) :
    wordBytes (packWord b0 b1 b2 b3) = [b0, b1, b2, b3] := by
  have h0 : wordByte (packWord b0 b1 b2 b3) 0 = b0 := by
    ext j hj
    simp [wordByte, packWord, show j < 8 from hj, show j < 32 by omega, show j < 16 by omega,
      show j < 24 by omega]
  have h1 : wordByte (packWord b0 b1 b2 b3) 1 = b1 := by
    ext j hj
    simp [wordByte, packWord, show j < 8 from hj, show 8 + j < 32 by omega, show 8 + j < 16 by omega,
      show 8 + j < 24 by omega]
  have h2 : wordByte (packWord b0 b1 b2 b3) 2 = b2 := by
    ext j hj
    simp [wordByte, packWord, show j < 8 from hj, show 16 + j < 32 by omega,
      show 16 + j < 24 by omega, show ¬ 16 + j < 16 by omega, show 16 + j - 8 = 8 + j by omega,
      BitVec.getLsbD_of_ge b0 (16 + j) (by omega)]
  have h3 : wordByte (packWord b0 b1 b2 b3) 3 = b3 := by
    ext j hj
    simp [wordByte, packWord, show j < 8 from hj, show 24 + j < 32 by omega,
      show 24 + j - 8 = 16 + j by omega, show 24 + j - 16 = 8 + j by omega,
      BitVec.getLsbD_of_ge b0 (24 + j) (by omega), BitVec.getLsbD_of_ge b1 (16 + j) (by omega)]
  simp only [wordBytes, h0, h1, h2, h3]

/-- Unpacking takes the bytes of the words in order. -/
theorem unpackKey_cons (len : Nat) (w : Word) (ws : List Word) :
    unpackKey (len + 4) (w :: ws) = wordBytes w ++ unpackKey len ws := by
  simp [unpackKey, wordBytes]

/-- Unpacking a packed key gives it back (R73). -/
theorem unpackKey_packKey : ∀ key : Key, unpackKey key.length (packKey key) = key
  | [] => rfl
  | [b0] => by simp [unpackKey, packKey, wordBytes_packWord]
  | [b0, b1] => by simp [unpackKey, packKey, wordBytes_packWord]
  | [b0, b1, b2] => by simp [unpackKey, packKey, wordBytes_packWord]
  | b0 :: b1 :: b2 :: b3 :: rest => by
    have ih := unpackKey_packKey rest
    simp only [packKey, List.length_cons]
    rw [unpackKey_cons, ih, wordBytes_packWord]
    rfl

/-- A payload has four bytes a word. -/
@[simp] theorem length_flatMap_wordBytes (ws : List Word) :
    (ws.flatMap wordBytes).length = 4 * ws.length := by
  induction ws with
  | nil => rfl
  | cons w ws ih => simp only [List.flatMap_cons, List.length_append, ih, wordBytes,
      List.length_cons, List.length_nil]; omega

/-- A key unpacked from enough words has the length asked for (R73). -/
theorem length_unpackKey (len : Nat) (ws : List Word) (h : ceil4 len ≤ ws.length) :
    (unpackKey len ws).length = len := by
  simp only [unpackKey, List.length_take, length_flatMap_wordBytes, ceil4] at *
  omega

/-- What `decodeTwo` can answer. -/
theorem decodeTwo_cases (mk : Word → Word → Instr) (s : List Word) :
    (decodeTwo mk s = .incomplete ∧ s.length < 2) ∨
      ∃ a b rest, s = a :: b :: rest ∧ decodeTwo mk s = .command (mk a b) rest := by
  match s with
  | [] => exact .inl ⟨rfl, by simp⟩
  | [_] => exact .inl ⟨rfl, by simp⟩
  | a :: b :: rest => exact .inr ⟨a, b, rest, rfl, rfl⟩

/-- What `decodeKey` can answer. -/
theorem decodeKey_cases (mk : Key → Instr) (s : List Word) :
    decodeKey mk s = .incomplete ∨
      ∃ len payload rest, s = len :: (payload ++ rest) ∧ payload.length = ceil4 len.toNat ∧
        decodeKey mk s = .command (mk (unpackKey len.toNat payload)) rest := by
  match s with
  | [] => exact .inl rfl
  | len :: s =>
    by_cases h : s.length < ceil4 len.toNat
    · exact .inl (by simp [decodeKey, h])
    · refine .inr ⟨len, s.take (ceil4 len.toNat), s.drop (ceil4 len.toNat), ?_, ?_, ?_⟩
      · rw [List.take_append_drop]
      · rw [List.length_take]; omega
      · simp [decodeKey, h]

/-- `decodeKey` where the payload is all there. -/
theorem decodeKey_complete (mk : Key → Instr) (len : Word) (payload rest : List Word)
    (h : payload.length = ceil4 len.toNat) :
    decodeKey mk (len :: (payload ++ rest)) = .command (mk (unpackKey len.toNat payload)) rest := by
  have hlt : ¬ (payload ++ rest).length < ceil4 len.toNat := by
    rw [List.length_append]; omega
  rw [decodeKey, if_neg hlt, ← h, List.take_left', List.drop_left'] <;> rfl

/-- `decodeKey` where words of the payload are missing. -/
theorem decodeKey_short (mk : Key → Instr) (len : Word) (s : List Word)
    (h : s.length < ceil4 len.toNat) : decodeKey mk (len :: s) = .incomplete := by
  rw [decodeKey, if_pos h]

/-- The two words of a response as numbers (R77): `OPC * 2^24 + STATUS`, then VALUE. -/
theorem encodeResponse_eq (r : Response) : encodeResponse r =
    [BitVec.ofNat 32 (r.opc.toNat * 2 ^ 24 + (statusCode r.status).toNat), r.value] := by
  have h1 := r.opc.isLt
  have h2 := (statusCode r.status).isLt
  simp only [encodeResponse, List.cons.injEq, and_true]
  apply BitVec.eq_of_toNat_eq
  simp only [BitVec.toNat_or, BitVec.toNat_shiftLeft, BitVec.toNat_setWidth, BitVec.toNat_ofNat]
  rw [Nat.mod_eq_of_lt (show r.opc.toNat < 2 ^ 32 by omega),
    Nat.mod_eq_of_lt (show (statusCode r.status).toNat < 2 ^ 32 by omega), Nat.shiftLeft_eq,
    Nat.mod_eq_of_lt (show r.opc.toNat * 2 ^ 24 < 2 ^ 32 by omega), Nat.mod_eq_of_lt (by omega),
    Nat.mul_comm, ← Nat.two_pow_add_eq_or_of_lt (by omega)]

end Sys2Proof
end

