-- ==== Sys2Proof/Laws/Memory.lean ====
section
/-! SUPPORT. The bit-vector memory: what a read gives after a write, and that every operation keeps the
canonical form (spec/20_memory.md R51). -/

namespace Sys2Proof.Machine

/-- Listing a cell lists it and what was listed before. -/
@[simp] theorem Memory.mem_insert (c d : Cell) (mem : Memory) :
    d ∈ Memory.insert c mem ↔ d = c ∨ d ∈ mem := by
  induction mem with
  | nil => simp [Memory.insert]
  | cons e rest ih =>
    unfold Memory.insert
    split_ifs with h1 h2
    · subst h1; simp
    · simp
    · simp only [List.mem_cons, ih]; tauto

/-- A written cell is listed when a 1 was written; the others are listed as before. -/
@[simp] theorem Memory.mem_write (mem : Memory) (c d : Cell) (b : Bool) :
    d ∈ Memory.write mem c b ↔ (d = c ∧ b = true) ∨ (d ≠ c ∧ d ∈ mem) := by
  cases b
  · simp [Memory.write, and_comm]
  · simp only [Memory.write, if_true, Memory.mem_insert]
    tauto

/-- A read is whether the cell is listed. -/
theorem Memory.read_eq_true (mem : Memory) (c : Cell) : Memory.read mem c = true ↔ c ∈ mem := by
  simp [Memory.read]

/-- A read of the empty memory is 0. -/
@[simp] theorem Memory.read_nil (c : Cell) : Memory.read [] c = false := by simp [Memory.read]

/-- A read after a write. -/
theorem Memory.read_write (mem : Memory) (c d : Cell) (b : Bool) :
    Memory.read (Memory.write mem c b) d = if d = c then b else Memory.read mem d := by
  unfold Memory.read
  split_ifs with h
  · subst h; cases b <;> simp
  · simp [h]

/-- Of two different cells one comes first. -/
theorem Cell.lt_trichotomy (c d : Cell) : c = d ∨ CellLt c d ∨ CellLt d c := by
  obtain ⟨a, b⟩ := c
  obtain ⟨x, y⟩ := d
  simp only [CellLt, Prod.mk.injEq]
  omega

/-- The order of cells is transitive. -/
theorem Cell.lt_trans {c d e : Cell} (h1 : CellLt c d) (h2 : CellLt d e) : CellLt c e := by
  simp only [CellLt] at *
  omega

/-- No cell comes before itself. -/
theorem Cell.lt_irrefl (c : Cell) : ¬ CellLt c c := by
  simp only [CellLt]
  omega

/-- Listing a cell keeps the canonical form. -/
theorem Memory.insert_wf (c : Cell) {mem : Memory} (h : Memory.wf mem) :
    Memory.wf (Memory.insert c mem) := by
  induction mem with
  | nil => simp [Memory.insert]
  | cons e rest ih =>
    obtain ⟨he, hr⟩ := List.pairwise_cons.1 h
    unfold Memory.insert
    split_ifs with h1 h2
    · exact h
    · refine List.pairwise_cons.2 ⟨fun d hd => ?_, h⟩
      rcases List.mem_cons.1 hd with rfl | hd
      · exact h2
      · exact Cell.lt_trans h2 (he d hd)
    · refine List.pairwise_cons.2 ⟨fun d hd => ?_, ih hr⟩
      rcases (Memory.mem_insert c d rest).1 hd with rfl | hd
      · exact ((Cell.lt_trichotomy d e).resolve_left h1).resolve_left h2
      · exact he d hd

/-- Writing a bit keeps the canonical form. -/
theorem Memory.write_wf (c : Cell) (b : Bool) {mem : Memory} (h : Memory.wf mem) :
    Memory.wf (Memory.write mem c b) := by
  cases b
  · exact h.filter _
  · exact Memory.insert_wf c h

/-- The memory after reset is in canonical form. -/
theorem Memory.reset_wf : Memory.wf State.reset.bv := List.Pairwise.nil

/-- The bit a state holds after one was written. -/
theorem State.bit_setBit (s : State) (v idx v' idx' : Nat) (b : Bool) :
    (s.setBit v idx b).bit v' idx' = if (v', idx') = (v, idx) then b else s.bit v' idx' :=
  Memory.read_write s.bv (v, idx) (v', idx') b

/-- What `memRead` can do: answer the bit of a cell that exists (R51). -/
theorem memRead_eq_ok (s : State) (v idx : Nat) (b : Bool) :
    memRead s v idx = .ok b ↔ s.hasCell v idx ∧ s.bit v idx = b := by
  unfold memRead
  split_ifs with h
  · simp only [Except.ok.injEq]; tauto
  · simp [h]

/-- What `memWrite` can do: write the bit of a cell that exists (R51). -/
theorem memWrite_eq_ok (s t : State) (v idx : Nat) (b : Bool) :
    memWrite s v idx b = .ok t ↔ s.hasCell v idx ∧ t = s.setBit v idx b := by
  unfold memWrite
  split_ifs with h
  · simp only [Except.ok.injEq]; tauto
  · simp [h]

end Sys2Proof.Machine
end

