-- ==== Sys2Proof/Laws/State.lean ====
section
/-! SUPPORT. What each update of the state does to each field: true by definition, so that no proof unfolds a
record update. -/

namespace Sys2Proof.Machine

/-! ### `State.setBit` -/

@[simp] theorem setBit_init (s : State) (v idx : Nat) (b : Bool) :
    (s.setBit v idx b).init = s.init := rfl

@[simp] theorem setBit_m (s : State) (v idx : Nat) (b : Bool) :
    (s.setBit v idx b).m = s.m := rfl

@[simp] theorem setBit_k (s : State) (v idx : Nat) (b : Bool) :
    (s.setBit v idx b).k = s.k := rfl

@[simp] theorem setBit_bv (s : State) (v idx : Nat) (b : Bool) :
    (s.setBit v idx b).bv = Memory.write s.bv (v, idx) b := rfl

@[simp] theorem setBit_count (s : State) (v idx : Nat) (b : Bool) :
    (s.setBit v idx b).count = s.count := rfl

@[simp] theorem setBit_bitsMax (s : State) (v idx : Nat) (b : Bool) :
    (s.setBit v idx b).bitsMax = s.bitsMax := rfl

@[simp] theorem setBit_rspDepth (s : State) (v idx : Nat) (b : Bool) :
    (s.setBit v idx b).rspDepth = s.rspDepth := rfl

@[simp] theorem setBit_cmd (s : State) (v idx : Nat) (b : Bool) :
    (s.setBit v idx b).cmd = s.cmd := rfl

@[simp] theorem setBit_rsp (s : State) (v idx : Nat) (b : Bool) :
    (s.setBit v idx b).rsp = s.rsp := rfl

@[simp] theorem setBit_host (s : State) (v idx : Nat) (b : Bool) :
    (s.setBit v idx b).host = s.host := rfl

@[simp] theorem setBit_received (s : State) (v idx : Nat) (b : Bool) :
    (s.setBit v idx b).received = s.received := rfl

/-! ### `respond` -/

@[simp] theorem respond_init (opc : Byte) (st : Status) (w : Word) (s : State) :
    (respond opc st w s).init = s.init := rfl

@[simp] theorem respond_m (opc : Byte) (st : Status) (w : Word) (s : State) :
    (respond opc st w s).m = s.m := rfl

@[simp] theorem respond_k (opc : Byte) (st : Status) (w : Word) (s : State) :
    (respond opc st w s).k = s.k := rfl

@[simp] theorem respond_bv (opc : Byte) (st : Status) (w : Word) (s : State) :
    (respond opc st w s).bv = s.bv := rfl

@[simp] theorem respond_count (opc : Byte) (st : Status) (w : Word) (s : State) :
    (respond opc st w s).count = s.count := rfl

@[simp] theorem respond_bitsMax (opc : Byte) (st : Status) (w : Word) (s : State) :
    (respond opc st w s).bitsMax = s.bitsMax := rfl

@[simp] theorem respond_rspDepth (opc : Byte) (st : Status) (w : Word) (s : State) :
    (respond opc st w s).rspDepth = s.rspDepth := rfl

@[simp] theorem respond_cmd (opc : Byte) (st : Status) (w : Word) (s : State) :
    (respond opc st w s).cmd = s.cmd := rfl

@[simp] theorem respond_rsp (opc : Byte) (st : Status) (w : Word) (s : State) :
    (respond opc st w s).rsp = s.rsp ++ encodeResponse { opc := opc, status := st, value := w } := rfl

@[simp] theorem respond_host (opc : Byte) (st : Status) (w : Word) (s : State) :
    (respond opc st w s).host = s.host := rfl

@[simp] theorem respond_received (opc : Byte) (st : Status) (w : Word) (s : State) :
    (respond opc st w s).received = s.received := rfl

/-! ### `raise` -/

@[simp] theorem raise_init (opc : Byte) (st : Status) (s : State) :
    (raise opc st s).init = s.init := rfl

@[simp] theorem raise_m (opc : Byte) (st : Status) (s : State) :
    (raise opc st s).m = s.m := rfl

@[simp] theorem raise_k (opc : Byte) (st : Status) (s : State) :
    (raise opc st s).k = s.k := rfl

@[simp] theorem raise_bv (opc : Byte) (st : Status) (s : State) :
    (raise opc st s).bv = s.bv := rfl

@[simp] theorem raise_count (opc : Byte) (st : Status) (s : State) :
    (raise opc st s).count = s.count := rfl

@[simp] theorem raise_bitsMax (opc : Byte) (st : Status) (s : State) :
    (raise opc st s).bitsMax = s.bitsMax := rfl

@[simp] theorem raise_rspDepth (opc : Byte) (st : Status) (s : State) :
    (raise opc st s).rspDepth = s.rspDepth := rfl

@[simp] theorem raise_cmd (opc : Byte) (st : Status) (s : State) :
    (raise opc st s).cmd = s.cmd := rfl

@[simp] theorem raise_rsp (opc : Byte) (st : Status) (s : State) :
    (raise opc st s).rsp = s.rsp ++ encodeResponse { opc := opc, status := st, value := 0 } := rfl

@[simp] theorem raise_host (opc : Byte) (st : Status) (s : State) :
    (raise opc st s).host = s.host := rfl

@[simp] theorem raise_received (opc : Byte) (st : Status) (s : State) :
    (raise opc st s).received = s.received := rfl

/-! ### `illegalHeader` -/

@[simp] theorem illegalHeader_init (h : Word) (s : State) :
    (illegalHeader h s).init = s.init := rfl

@[simp] theorem illegalHeader_m (h : Word) (s : State) :
    (illegalHeader h s).m = s.m := rfl

@[simp] theorem illegalHeader_k (h : Word) (s : State) :
    (illegalHeader h s).k = s.k := rfl

@[simp] theorem illegalHeader_bv (h : Word) (s : State) :
    (illegalHeader h s).bv = s.bv := rfl

@[simp] theorem illegalHeader_count (h : Word) (s : State) :
    (illegalHeader h s).count = s.count := rfl

@[simp] theorem illegalHeader_bitsMax (h : Word) (s : State) :
    (illegalHeader h s).bitsMax = s.bitsMax := rfl

@[simp] theorem illegalHeader_rspDepth (h : Word) (s : State) :
    (illegalHeader h s).rspDepth = s.rspDepth := rfl

@[simp] theorem illegalHeader_cmd (h : Word) (s : State) :
    (illegalHeader h s).cmd = s.cmd := rfl

@[simp] theorem illegalHeader_rsp (h : Word) (s : State) :
    (illegalHeader h s).rsp = s.rsp ++ encodeResponse { opc := opcOf h, status := .illegalCommand, value := 0 } := rfl

@[simp] theorem illegalHeader_host (h : Word) (s : State) :
    (illegalHeader h s).host = s.host := rfl

@[simp] theorem illegalHeader_received (h : Word) (s : State) :
    (illegalHeader h s).received = s.received := rfl

/-! ### `consume` -/

@[simp] theorem consume_init (rest : List Word) (s : State) :
    (consume rest s).init = s.init := rfl

@[simp] theorem consume_m (rest : List Word) (s : State) :
    (consume rest s).m = s.m := rfl

@[simp] theorem consume_k (rest : List Word) (s : State) :
    (consume rest s).k = s.k := rfl

@[simp] theorem consume_bv (rest : List Word) (s : State) :
    (consume rest s).bv = s.bv := rfl

@[simp] theorem consume_count (rest : List Word) (s : State) :
    (consume rest s).count = s.count := rfl

@[simp] theorem consume_bitsMax (rest : List Word) (s : State) :
    (consume rest s).bitsMax = s.bitsMax := rfl

@[simp] theorem consume_rspDepth (rest : List Word) (s : State) :
    (consume rest s).rspDepth = s.rspDepth := rfl

@[simp] theorem consume_cmd (rest : List Word) (s : State) :
    (consume rest s).cmd = rest := rfl

@[simp] theorem consume_rsp (rest : List Word) (s : State) :
    (consume rest s).rsp = s.rsp := rfl

@[simp] theorem consume_host (rest : List Word) (s : State) :
    (consume rest s).host = s.host := rfl

@[simp] theorem consume_received (rest : List Word) (s : State) :
    (consume rest s).received = s.received := rfl

/-! ### `constructFilter` -/

@[simp] theorem constructFilter_init (m k : Word) (s : State) :
    (constructFilter m k s).init = true := rfl

@[simp] theorem constructFilter_m (m k : Word) (s : State) :
    (constructFilter m k s).m = m := rfl

@[simp] theorem constructFilter_k (m k : Word) (s : State) :
    (constructFilter m k s).k = k := rfl

@[simp] theorem constructFilter_bv (m k : Word) (s : State) :
    (constructFilter m k s).bv = [] := rfl

@[simp] theorem constructFilter_count (m k : Word) (s : State) :
    (constructFilter m k s).count = 0 := rfl

@[simp] theorem constructFilter_bitsMax (m k : Word) (s : State) :
    (constructFilter m k s).bitsMax = s.bitsMax := rfl

@[simp] theorem constructFilter_rspDepth (m k : Word) (s : State) :
    (constructFilter m k s).rspDepth = s.rspDepth := rfl

@[simp] theorem constructFilter_cmd (m k : Word) (s : State) :
    (constructFilter m k s).cmd = s.cmd := rfl

@[simp] theorem constructFilter_rsp (m k : Word) (s : State) :
    (constructFilter m k s).rsp = s.rsp := rfl

@[simp] theorem constructFilter_host (m k : Word) (s : State) :
    (constructFilter m k s).host = s.host := rfl

@[simp] theorem constructFilter_received (m k : Word) (s : State) :
    (constructFilter m k s).received = s.received := rfl

/-! ### `countAdd` -/

@[simp] theorem countAdd_init (s : State) :
    (countAdd s).init = s.init := rfl

@[simp] theorem countAdd_m (s : State) :
    (countAdd s).m = s.m := rfl

@[simp] theorem countAdd_k (s : State) :
    (countAdd s).k = s.k := rfl

@[simp] theorem countAdd_bv (s : State) :
    (countAdd s).bv = s.bv := rfl

@[simp] theorem countAdd_count (s : State) :
    (countAdd s).count = BitVec.ofNat 64 (min (s.count.toNat + 1) (2 ^ 64 - 1)) := rfl

@[simp] theorem countAdd_bitsMax (s : State) :
    (countAdd s).bitsMax = s.bitsMax := rfl

@[simp] theorem countAdd_rspDepth (s : State) :
    (countAdd s).rspDepth = s.rspDepth := rfl

@[simp] theorem countAdd_cmd (s : State) :
    (countAdd s).cmd = s.cmd := rfl

@[simp] theorem countAdd_rsp (s : State) :
    (countAdd s).rsp = s.rsp := rfl

@[simp] theorem countAdd_host (s : State) :
    (countAdd s).host = s.host := rfl

@[simp] theorem countAdd_received (s : State) :
    (countAdd s).received = s.received := rfl

/-! ### `resetBlock` -/

@[simp] theorem resetBlock_init (s : State) :
    (resetBlock s).init = false := rfl

@[simp] theorem resetBlock_m (s : State) :
    (resetBlock s).m = 0 := rfl

@[simp] theorem resetBlock_k (s : State) :
    (resetBlock s).k = 0 := rfl

@[simp] theorem resetBlock_bv (s : State) :
    (resetBlock s).bv = [] := rfl

@[simp] theorem resetBlock_count (s : State) :
    (resetBlock s).count = 0 := rfl

@[simp] theorem resetBlock_bitsMax (s : State) :
    (resetBlock s).bitsMax = s.bitsMax := rfl

@[simp] theorem resetBlock_rspDepth (s : State) :
    (resetBlock s).rspDepth = s.rspDepth := rfl

@[simp] theorem resetBlock_cmd (s : State) :
    (resetBlock s).cmd = [] := rfl

@[simp] theorem resetBlock_rsp (s : State) :
    (resetBlock s).rsp = [] := rfl

@[simp] theorem resetBlock_host (s : State) :
    (resetBlock s).host = s.host := rfl

@[simp] theorem resetBlock_received (s : State) :
    (resetBlock s).received = s.received := rfl

end Sys2Proof.Machine
end

