-- ==== Sys2Proof/Laws/Exec.lean ====
section
/-! SUPPORT. What each meaning and each shared loop can do, said once: the rounds of `ADD` and `QUERY`, and
one inversion lemma per command (spec/42_bloom.md R154 to R156, spec/43_system.md R190, R191). -/

namespace Sys2Proof.Machine

/-- The cell of a round `1 .. K` exists when `M >= 1` (R51). -/
theorem roundCell_hasCell (f g : Word) (s : State) (i : Nat) (hm : 1 ≤ s.m.toNat) (hi : 1 ≤ i)
    (hk : i ≤ s.k.toNat) : s.hasCell (roundCell f g i s.m).1 (roundCell f g i s.m).2 := by
  refine ⟨show i - 1 < s.k.toNat by omega, ?_⟩
  simp only [roundCell, index]
  split_ifs <;> exact Nat.mod_lt _ hm

/-! ### The rounds of ADD -/

/-- What the writes of `ADD` can do: they set the cells of their rounds and nothing else. -/
theorem setRounds_spec (f g : Word) (n : Nat) : ∀ (i : Nat) (s t : State),
    setRounds f g i n s = .ok t →
      t = { s with bv := t.bv } ∧ (Memory.wf s.bv → Memory.wf t.bv) ∧
      ∀ v idx, t.bit v idx = true ↔
        s.bit v idx = true ∨ ∃ j, i ≤ j ∧ j < i + n ∧ (v, idx) = roundCell f g j s.m := by
  induction n with
  | zero =>
    intro i s t h
    simp only [setRounds, Except.ok.injEq] at h
    subst h
    refine ⟨rfl, id, fun v idx => ⟨.inl, ?_⟩⟩
    rintro (h | ⟨j, h1, h2, -⟩)
    · exact h
    · omega
  | succ n ih =>
    intro i s t h
    simp only [setRounds] at h
    split at h
    · exact absurd h (by simp)
    · rename_i u hu
      obtain ⟨-, rfl⟩ := (memWrite_eq_ok ..).1 hu
      obtain ⟨h1, h2, h3⟩ := ih _ _ _ h
      refine ⟨h1, fun hwf => h2 (by rw [setBit_bv]; exact Memory.write_wf _ _ hwf), fun v idx => ?_⟩
      rw [h3, State.bit_setBit]
      simp only [setBit_m, Prod.mk.eta]
      constructor
      · rintro (hb | ⟨j, hj1, hj2, hj⟩)
        · split_ifs at hb with hc
          · exact .inr ⟨i, le_rfl, by omega, hc⟩
          · exact .inl hb
        · exact .inr ⟨j, by omega, by omega, hj⟩
      · rintro (hb | ⟨j, hj1, hj2, hj⟩)
        · exact .inl (by split_ifs <;> simp [hb])
        · rcases Nat.eq_or_lt_of_le hj1 with rfl | hlt
          · exact .inl (by rw [if_pos hj])
          · exact .inr ⟨j, hlt, by omega, hj⟩

/-- The writes of `ADD` never leave the vectors when `M >= 1` (R51). -/
theorem setRounds_total (f g : Word) (n : Nat) : ∀ (i : Nat) (s : State), 1 ≤ s.m.toNat → 1 ≤ i →
    i + n ≤ s.k.toNat + 1 → ∃ t, setRounds f g i n s = .ok t := by
  induction n with
  | zero => exact fun i s _ _ _ => ⟨s, rfl⟩
  | succ n ih =>
    intro i s hm hi hk
    have hw := (memWrite_eq_ok s (s.setBit _ _ true) _ _ true).2
      ⟨roundCell_hasCell f g s i hm hi (by omega), rfl⟩
    obtain ⟨t, ht⟩ := ih (i + 1) (s.setBit (roundCell f g i s.m).1 (roundCell f g i s.m).2 true)
      hm (by omega) (by simpa using by omega)
    exact ⟨t, by simp only [setRounds, hw]; exact ht⟩

/-! ### The rounds of QUERY -/

/-- What the tests of `QUERY` answer when `M >= 1`: whether the bits of their rounds are all set. -/
theorem testRounds_spec (f g : Word) (s : State) (hm : 1 ≤ s.m.toNat) (n : Nat) : ∀ i : Nat, 1 ≤ i →
    i + n ≤ s.k.toNat + 1 → ∃ b, testRounds f g s i n = .ok b ∧
      (b = true ↔ ∀ j, i ≤ j → j < i + n →
        s.bit (roundCell f g j s.m).1 (roundCell f g j s.m).2 = true) := by
  induction n with
  | zero => exact fun i _ _ => ⟨true, rfl, by simp; omega⟩
  | succ n ih =>
    intro i hi hk
    have hr := (memRead_eq_ok s _ _ _).2 ⟨roundCell_hasCell f g s i hm hi (by omega), rfl⟩
    obtain ⟨b, hb, hall⟩ := ih (i + 1) (by omega) (by omega)
    cases hbit : s.bit (roundCell f g i s.m).1 (roundCell f g i s.m).2 with
    | false =>
      refine ⟨false, by simp only [testRounds, hr, hbit], ?_⟩
      simp only [Bool.false_eq_true, false_iff]
      intro hall'
      simpa [hbit] using hall' i le_rfl (by omega)
    | true =>
      refine ⟨b, by simp only [testRounds, hr, hbit, hb], hall.trans ⟨fun h j hj1 hj2 => ?_,
        fun h j hj1 hj2 => h j (by omega) (by omega)⟩⟩
      rcases Nat.eq_or_lt_of_le hj1 with rfl | hlt
      · exact hbit
      · exact h j hlt (by omega)

/-! ### One inversion lemma per command -/

/-- What `INIT_MK` can do (R154). -/
theorem execInitMk_cases (m k : Word) (s t : State) (h : execInitMk m k s = .next t) :
    (∃ e, checkInitMk s m k = some e ∧ t = raise 0x01 e s) ∨
      (checkInitMk s m k = none ∧ t = respond 0x01 .ok 0 (constructFilter m k s)) := by
  unfold execInitMk at h
  split at h
  · rename_i e he; exact .inl ⟨e, he, by simpa using h.symm⟩
  · rename_i he; exact .inr ⟨he, by simpa using h.symm⟩

/-- When `INIT_MK` finds nothing to report (R154). -/
theorem checkInitMk_eq_none (s : State) (m k : Word) : checkInitMk s m k = none ↔
    s.init = false ∧ 1 ≤ m.toNat ∧ 1 ≤ k.toNat ∧ m.toNat * k.toNat ≤ s.bitsMax.toNat := by
  have hz : ∀ w : Word, w = 0 ↔ w.toNat = 0 := fun w => by
    rw [← BitVec.toNat_inj]; rfl
  unfold checkInitMk
  split_ifs with h1 h2 h3
  · simp [h1]
  · rw [hz, hz] at h2
    simp; omega
  · simp; omega
  · rw [hz, hz] at h2
    simp at h1
    simp [h1]; omega

/-- What `ADD` can do (R155). -/
theorem execAdd_cases (key : Key) (s t : State) (h : execAdd key s = .next t) :
    (s.init = false ∧ t = raise 0x02 .invalidState s) ∨
      (s.init = true ∧ ∃ u, setRounds (fnv32 key) (murmur32 key) 1 s.k.toNat s = .ok u ∧
        t = respond 0x02 .ok 0 (countAdd u)) := by
  unfold execAdd checkFilter at h
  cases hi : s.init with
  | false => exact .inl ⟨rfl, by simpa [hi] using h.symm⟩
  | true =>
    simp only [hi, if_true] at h
    split at h
    · simp at h
    · rename_i u hu; exact .inr ⟨rfl, u, hu, by simpa using h.symm⟩

/-- What `QUERY` can do (R156). -/
theorem execQuery_cases (key : Key) (s t : State) (h : execQuery key s = .next t) :
    (s.init = false ∧ t = raise 0x03 .invalidState s) ∨
      (s.init = true ∧ ∃ b, testRounds (fnv32 key) (murmur32 key) s 1 s.k.toNat = .ok b ∧
        t = respond 0x03 .ok (bitValue b) s) := by
  unfold execQuery checkFilter at h
  cases hi : s.init with
  | false => exact .inl ⟨rfl, by simpa [hi] using h.symm⟩
  | true =>
    simp only [hi, if_true] at h
    split at h
    · simp at h
    · rename_i b hb; exact .inr ⟨rfl, b, hb, by simpa using h.symm⟩

/-- What `RDBIT` can do: its checks leave no cell that does not exist (R191). -/
theorem execRdbit_cases (v idx : Word) (s t : State) (h : execRdbit v idx s = .next t) :
    (∃ e, checkRdbit s v idx = some e ∧ t = raise 0x07 e s) ∨
      (checkRdbit s v idx = none ∧ s.hasCell v.toNat idx.toNat ∧
        t = respond 0x07 .ok (bitValue (s.bit v.toNat idx.toNat)) s) := by
  unfold execRdbit at h
  split at h
  · rename_i e he; exact .inl ⟨e, he, by simpa using h.symm⟩
  · rename_i he
    split at h
    · simp at h
    · rename_i b hb
      obtain ⟨hc, rfl⟩ := (memRead_eq_ok ..).1 hb
      exact .inr ⟨he, hc, by simpa using h.symm⟩

/-- When `RDBIT` finds nothing to report (R191). -/
theorem checkRdbit_eq_none (s : State) (v idx : Word) :
    checkRdbit s v idx = none ↔ s.init = true ∧ s.hasCell v.toNat idx.toNat := by
  unfold checkRdbit
  split_ifs with h1 h2
  · simp [h1]
  · simp only [false_iff, not_and]; omega
  · simp only [true_iff]
    exact ⟨by simpa using h1, by omega⟩

/-- A read of the check of `ADD` and `QUERY`. -/
theorem checkFilter_eq_none (s : State) : checkFilter s = none ↔ s.init = true := by
  unfold checkFilter
  split_ifs with h <;> simp [h]

/-! ### What every command does -/

/-- Exactly five codes exist (R200). -/
theorem statusCode_le (st : Status) : (statusCode st).toNat ≤ 4 := by cases st <;> decide

/-- `OK` is the one code that is 0 (R200). -/
theorem statusCode_eq_zero (st : Status) : (statusCode st).toNat = 0 ↔ st = .ok := by
  cases st <;> decide

/-- What any command can do: it makes at most a change `u` to the filter, which leaves the parameters, the
channels and the host's side alone, and answers one response; an error makes no change (R77, R206). -/
theorem exec_responds (i : Instr) (s t : State) (h : exec i s = .next t) :
    ∃ st value u, t = respond (opcodeOf i) st value u ∧
      (u.bitsMax = s.bitsMax ∧ u.rspDepth = s.rspDepth ∧ u.cmd = s.cmd ∧ u.rsp = s.rsp ∧
        u.host = s.host ∧ u.received = s.received) ∧
      (st ≠ .ok → u = s ∧ value = 0) := by
  have same : ∀ opc st value, t = respond opc st value s → (st ≠ .ok → value = 0) →
      opc = opcodeOf i → ∃ st value u, t = respond (opcodeOf i) st value u ∧
        (u.bitsMax = s.bitsMax ∧ u.rspDepth = s.rspDepth ∧ u.cmd = s.cmd ∧ u.rsp = s.rsp ∧
          u.host = s.host ∧ u.received = s.received) ∧
        (st ≠ .ok → u = s ∧ value = 0) := by
    rintro opc st value rfl hv rfl
    exact ⟨st, value, s, rfl, by simp, fun he => ⟨rfl, hv he⟩⟩
  cases i with
  | initMk m k =>
    rcases execInitMk_cases m k s t h with ⟨e, -, ht⟩ | ⟨-, ht⟩
    · exact same _ e 0 ht (fun _ => rfl) rfl
    · exact ⟨.ok, 0, constructFilter m k s, ht, by simp, by simp⟩
  | add key =>
    rcases execAdd_cases key s t h with ⟨-, ht⟩ | ⟨-, u, hu, ht⟩
    · exact same _ _ 0 ht (fun _ => rfl) rfl
    · have hv := (setRounds_spec _ _ _ _ _ _ hu).1
      refine ⟨.ok, 0, countAdd u, ht, ?_, by simp⟩
      rw [hv]
      simp
  | query key =>
    rcases execQuery_cases key s t h with ⟨-, ht⟩ | ⟨-, b, -, ht⟩
    · exact same _ _ 0 ht (fun _ => rfl) rfl
    · exact same _ .ok _ ht (by simp) rfl
  | hashFnv key =>
    exact same 0x04 .ok (fnv32 key) (by simpa [exec, execHashFnv] using h.symm) (by simp) rfl
  | hashMur key =>
    exact same 0x05 .ok (murmur32 key) (by simpa [exec, execHashMur] using h.symm) (by simp) rfl
  | rdreg r =>
    exact same 0x06 .ok (readReg s r) (by simpa [exec, execRdreg] using h.symm) (by simp) rfl
  | rdbit v idx =>
    rcases execRdbit_cases v idx s t h with ⟨e, -, ht⟩ | ⟨-, -, ht⟩
    · exact same _ e 0 ht (fun _ => rfl) rfl
    · exact same _ .ok _ ht (by simp) rfl

/-! ### The host's events -/

/-- No event writes a parameter (R5, R237). -/
theorem hostEvent_parameters (e : HostEvent) (s : State) :
    (hostEvent e s).bitsMax = s.bitsMax ∧ (hostEvent e s).rspDepth = s.rspDepth := by
  cases e with
  | word w => exact ⟨rfl, rfl⟩
  | accept => cases hr : s.rsp <;> simp [hostEvent, transferResponse, hr]
  | reset => exact ⟨rfl, rfl⟩

/-- A transfer of a response word loses none (R70). -/
theorem transferResponse_stream (s : State) :
    (transferResponse s).received ++ (transferResponse s).rsp = s.received ++ s.rsp := by
  unfold transferResponse
  split
  · rfl
  · rename_i w rest hr
    simp [hr]

/-- The event taken is the first that can happen; the others keep their order. -/
theorem firstEvent_spec (p : HostEvent → Bool) (es : List HostEvent) (e : HostEvent)
    (rest : List HostEvent) (h : firstEvent p es = some (e, rest)) :
    p e = true ∧ ∃ before after, es = before ++ e :: after ∧ rest = before ++ after ∧
      ∀ x ∈ before, p x = false := by
  induction es generalizing e rest with
  | nil => simp [firstEvent] at h
  | cons d ds ih =>
    unfold firstEvent at h
    split_ifs at h with hd
    · simp only [Option.some.injEq, Prod.mk.injEq] at h
      obtain ⟨rfl, rfl⟩ := h
      exact ⟨hd, [], ds, rfl, rfl, by simp⟩
    · split at h
      · simp at h
      · rename_i x r hx
        simp only [Option.some.injEq, Prod.mk.injEq] at h
        obtain ⟨rfl, rfl⟩ := h
        obtain ⟨hp, before, after, rfl, rfl, hb⟩ := ih x r hx
        exact ⟨hp, d :: before, after, rfl, rfl, by simpa using ⟨by simpa using hd, hb⟩⟩

/-- What a host step can do: nothing, or the first pending event that can happen. -/
theorem hostStep_cases (s : State) : hostStep s = s ∨
    ∃ e before after, canHappen s e = true ∧ s.host = before ++ e :: after ∧
      (∀ x ∈ before, canHappen s x = false) ∧
      hostStep s = hostEvent e { s with host := before ++ after } := by
  unfold hostStep
  split
  · exact .inl rfl
  · rename_i e rest he
    obtain ⟨hp, before, after, hs, rfl, hb⟩ := firstEvent_spec _ _ _ _ he
    exact .inr ⟨e, before, after, hp, hs, hb, rfl⟩

/-- What a step can do (R75, R236). -/
theorem step_cases (s t : State) (h : step s = .next t) :
    (∃ i rest, decode s.cmd = .command i rest ∧ exec i (consume rest s) = .next t) ∨
      (∃ w why rest, decode s.cmd = .illegal w why rest ∧ t = illegalHeader w (consume rest s)) ∨
      (decode s.cmd = .incomplete ∧ t = hostStep s) := by
  unfold step at h
  split at h
  · rename_i i rest hd; exact .inl ⟨i, rest, hd, h⟩
  · rename_i w why rest hd; exact .inr (.inl ⟨w, why, rest, hd, by simpa using h.symm⟩)
  · rename_i hd; exact .inr (.inr ⟨hd, by simpa using h.symm⟩)

end Sys2Proof.Machine
end

