-- ==== Sys2Proof/Laws/Run.lean ====
section
/-! SUPPORT. Runs of several steps, and what follows from what one step can do. -/

namespace Sys2Proof.Machine

/-- It is the host's run of the machine. -/
theorem run_eq_core (n : Nat) : ∀ s : State, run n s = Host.Core.run Sys2Proof.core n s := by
  induction n with
  | zero => exact fun s => rfl
  | succ n ih =>
    intro s
    cases hs : step s with
    | next t =>
      rw [run, hs]
      refine (ih t).trans ?_
      show _ = Host.Core.run Sys2Proof.core (n + 1) s
      have hs' : Sys2Proof.core.step s = .next t := hs
      simp [Host.Core.run.eq_def Sys2Proof.core (n + 1) s, hs']
    | fault r =>
      have hs' : Sys2Proof.core.step s = .fault r := hs
      simp only [run, hs, Host.Core.run.eq_def Sys2Proof.core (n + 1) s, hs']
      rfl
    | refused r =>
      have hs' : Sys2Proof.core.step s = .refused r := hs
      simp only [run, hs, Host.Core.run.eq_def Sys2Proof.core (n + 1) s, hs']
      rfl

/-- No step. -/
@[simp] theorem run_zero (s : State) : run 0 s = .next s := rfl

/-- A first step that goes on. -/
theorem run_succ (n : Nat) (s t : State) (h : step s = .next t) : run (n + 1) s = run n t := by
  rw [run, h]

/-- A first step that faults ends the run. -/
theorem run_succ_fault (n : Nat) (s : State) (r : Fault) (h : step s = .fault r) :
    run (n + 1) s = .fault r := by
  rw [run, h]

/-- A first step that is refused ends the run. -/
theorem run_succ_refused (n : Nat) (s : State) (r : Refusal) (h : step s = .refused r) :
    run (n + 1) s = .refused r := by
  rw [run, h]

/-- A run that answers a state made its first step. -/
theorem run_succ_cases (n : Nat) (s u : State) (h : run (n + 1) s = .next u) :
    ∃ t, step s = .next t ∧ run n t = .next u := by
  cases hs : step s with
  | next t => exact ⟨t, rfl, by rw [← h, run_succ n s t hs]⟩
  | fault r => simp [run_succ_fault n s r hs] at h
  | refused r => simp [run_succ_refused n s r hs] at h

/-- A run goes on where a shorter one ended. -/
theorem run_add (n k : Nat) : ∀ s t : State, run n s = .next t → run (n + k) s = run k t := by
  induction n with
  | zero => intro s t h; simp at h; subst h; simp
  | succ n ih =>
    intro s t h
    obtain ⟨u, hu, hr⟩ := run_succ_cases n s t h
    rw [Nat.add_right_comm, run_succ _ _ _ hu, ih u t hr]

/-- Packaging an induction: what every step keeps, a run keeps. -/
theorem run_keeps (P : State → Prop) (hP : ∀ s t, P s → step s = .next t → P t) (n : Nat) :
    ∀ s t : State, P s → run n s = .next t → P t := by
  induction n with
  | zero => intro s t hs h; simp at h; exact h ▸ hs
  | succ n ih =>
    intro s t hs h
    obtain ⟨u, hu, hr⟩ := run_succ_cases n s t h
    exact ih u t (hP s u hs hu) hr

/-- The invariant is about the filter and the parameters alone. -/
theorem State.Inv.of_sameFilter {s t : State} (h : s.Inv) (e : SameFilter s t)
    (ed : t.rspDepth = s.rspDepth) : t.Inv := by
  obtain ⟨hi, hm, hk, hb, hc, hx⟩ := e
  constructor
  · exact hb ▸ h.canonical
  · intro c hcell
    obtain ⟨h1, h2⟩ := h.inRange c (hb ▸ hcell)
    exact ⟨hk ▸ h1, hm ▸ h2⟩
  · rw [← hi, ← hm, ← hk, ← hx]; exact h.sized
  · rw [← hi, ← hm, ← hk, ← hb, ← hc]; exact h.unsized
  · rw [← hx]; exact h.capacity
  · rw [ed]; exact h.buffered

end Sys2Proof.Machine
end

