-- ==== Sys2Proof/Tests/Slice0.lean ====
section
/-! SUPPORT. Tests, each on one step of a small state, with values from spec/ (the row of
spec/95_test_vectors.md is named), and for each statement with hypotheses a state and operands that meet
them. -/

namespace Sys2Proof.Machine.Tests

/-! ### Helpers -/

/-- The state a step leaves, if it leaves one. -/
def after (o : Host.Outcome State Fault Refusal) : Option State :=
  match o with
  | .next t => some t
  | .fault _ => none
  | .refused _ => none

/-- The response words in the state a step leaves. -/
def answer (o : Host.Outcome State Fault Refusal) : Option (List Word) := (after o).map State.rsp

theorem next_of_after (o : Host.Outcome State Fault Refusal) (t : State) (h : after o = some t) :
    o = .next t := by
  cases o <;> simp_all [after]

/-- After `INIT_MK 10, 2` (B1). -/
def small : State := { State.reset with init := true, m := 10, k := 2 }

/-- After `ADD "a"` as well (B13). -/
def smallA : State := { small with bv := [(0, 0), (1, 0)], count := 1 }

/-- After `INIT_MK 10, 4` and `ADD "abc"` (B18, I3). -/
def wideAbc : State :=
  { State.reset with init := true, m := 10, k := 4, bv := [(0, 1), (1, 2), (2, 7), (3, 9)], count := 1 }

theorem test_small_inv : small.Inv :=
  ⟨List.Pairwise.nil, by decide, by decide, by decide, by decide, by decide⟩

theorem test_smallA_inv : smallA.Inv :=
  ⟨by decide, by decide, by decide, by decide, by decide, by decide⟩

/-! ### WellFormed -/

/-- A key of 2^32 bytes has no `LEN` word (R73): refused for each command that carries a key. -/
theorem test_wellFormed_refuses_long_key (key : Key) (h : key.length = 2 ^ 32) :
    ¬ WellFormed (.add key) ∧ ¬ WellFormed (.query key) ∧ ¬ WellFormed (.hashFnv key) ∧
      ¬ WellFormed (.hashMur key) := by
  simp [WellFormed, KeyFits, h]

theorem test_wellFormed_long_key_exists : ∃ key : Key, key.length = 2 ^ 32 :=
  ⟨List.replicate (2 ^ 32) 0, List.length_replicate⟩

/-- The longest key that can be sent is allowed. -/
theorem test_wellFormed_longest_key (key : Key) (h : key.length = 2 ^ 32 - 1) :
    WellFormed (.add key) := by
  simp only [WellFormed, KeyFits, h]
  decide

/-! ### Decoding, one word written out for every constructor (R71, R72, 95_test_vectors.md 2.7) -/

/-- E1. -/
theorem test_decode_initMk : decode [0x01000000, 0x0000000A, 0x00000002, 7] =
    .command (.initMk 10 2) [7] := by decide

/-- E2. -/
theorem test_decode_add : decode [0x02000000, 0x00000001, 0x00000061] =
    .command (.add [0x61]) [] := by decide

/-- E4: pad bytes ignored. -/
theorem test_decode_query : decode [0x03000000, 0x00000005, 0x6C6C6568, 0xFFFFFF6F] =
    .command (.query [0x68, 0x65, 0x6C, 0x6C, 0x6F]) [] := by decide

/-- E6. -/
theorem test_decode_hashFnv : decode [0x04000000, 0x00000006, 0x626F6F66, 0x00007261] =
    .command (.hashFnv [0x66, 0x6F, 0x6F, 0x62, 0x61, 0x72]) [] := by decide

/-- E8: a length that is a multiple of 4 has no word more. -/
theorem test_decode_hashMur : decode [0x05000000, 0x00000004, 0x64636261, 9] =
    .command (.hashMur [0x61, 0x62, 0x63, 0x64]) [9] := by decide

/-- E9, and the last register. -/
theorem test_decode_rdreg : decode [0x06000003, 0x06000006] = .command (.rdreg .countLo) [0x06000006] ∧
    decode [0x06000006] = .command (.rdreg .capHi) [] := by decide

/-- E10. -/
theorem test_decode_rdbit : decode [0x07000000, 0x00000001, 0x00000005] =
    .command (.rdbit 1 5) [] := by decide

/-- E5: the empty key has no payload. -/
theorem test_decode_empty_key : decode [0x03000000, 0x00000000, 5] = .command (.query []) [5] := by decide

/-- E11 to E14: opcodes that are not assigned. -/
theorem test_decode_unassigned :
    [0x00000000, 0x08000000, 0xFF000000, 0xFFFFFFFF].map (fun h : Word => readHeader h) =
      List.replicate 4 (.illegal .unassignedOpcode) := by decide

/-- E15 to E18: bits that must be 0, and register 7. -/
theorem test_decode_bad_arg :
    [0x06000007, 0x06000100, 0x02000001, 0x01000001].map (fun h : Word => readHeader h) =
      [.illegal .badRegister, .illegal .nonzeroArg, .illegal .nonzeroArg, .illegal .nonzeroArg] := by
  decide

/-- The reserved bits of every other header, the highest of them. -/
theorem test_decode_high_arg_bit :
    ([0x03800000, 0x04800000, 0x05800000, 0x06800000, 0x07800000] : List Word).map readHeader =
      List.replicate 5 (.illegal .nonzeroArg) := by decide

/-- E7. -/
theorem test_encode_hashMur : encode (.hashMur [0x61, 0x62, 0x63, 0x64, 0x65, 0x66, 0x67]) =
    [0x05000000, 0x00000007, 0x64636261, 0x00676665] := by decide

/-- R78: the syntax of the spec's own lines. -/
theorem test_assemble_key_in_brackets :
    assembleWords "HASH_FNV [FF 00]".toList = some [0x04000000, 2, 0x000000FF] ∧
      assembleWords "RDREG 7".toList = none := by decide

/-- What a host reads in the response of B24. -/
theorem test_decodeResponse : decodeResponse 0x07000001 0 = some ⟨0x07, .invalidParameter, 0⟩ ∧
    decodeResponse 0x07000005 0 = none := by decide

/-! ### Meanings -/

/-- B1, S3. -/
theorem test_initMk_ok : after (exec (.initMk 10 2) State.reset) =
    some { small with rsp := [0x01000000, 0] } := by decide

/-- B5, B6, B7: the product is exact and compared with `BITS_MAX`. -/
theorem test_initMk_capacity :
    answer (exec (.initMk 1024 1024) State.reset) = some [0x01000000, 0] ∧
    answer (exec (.initMk 1025 1024) State.reset) = some [0x01000004, 0] ∧
    answer (exec (.initMk 0xFFFFFFFF 0xFFFFFFFF) State.reset) = some [0x01000004, 0] := by decide

/-- B13 (I1). -/
theorem test_add_ok : after (exec (.add [0x61]) small) =
    some { smallA with rsp := [0x02000000, 0] } := by decide

/-- B27: `COUNT` saturates; a word of response is owed already. -/
theorem test_add_saturates :
    (after (exec (.add [0x61]) { smallA with count := 0xFFFFFFFFFFFFFFFF, rsp := [5] })).map
      (fun t => (t.count, t.rsp)) = some (0xFFFFFFFFFFFFFFFF, [5, 0x02000000, 0]) := by decide

/-- B14, B15, B16: a member, a non-member, a false positive. -/
theorem test_query_answers :
    answer (exec (.query [0x61]) smallA) = some [0x03000000, 1] ∧
    answer (exec (.query [0x62]) smallA) = some [0x03000000, 0] ∧
    answer (exec (.query [0x62, 0x67]) smallA) = some [0x03000000, 1] := by decide

/-- B18: round 1 hits and round 2 misses. -/
theorem test_query_second_round : answer (exec (.query []) wideAbc) = some [0x03000000, 0] := by decide

/-- F9, in the state after reset. -/
theorem test_hashFnv : answer (exec (.hashFnv [0x66, 0x6F, 0x6F, 0x62, 0x61, 0x72]) State.reset) =
    some [0x04000000, 0xBF9CF968] := by decide

/-- F14: a byte with its high bit set is not sign-extended. -/
theorem test_fnv_high_byte : fnv32 [0xFF] = 0x7A0B824E ∧ fnv32 [0x80] = 0x850B939F := by decide

/-- M10: two blocks and a tail, read by byte offset. -/
theorem test_hashMur :
    answer (exec (.hashMur [0x61, 0x62, 0x63, 0x64, 0x65, 0x66, 0x67, 0x68, 0x69]) State.reset) =
      some [0x05000000, 0x421406F0] := by decide

/-- M18, M21: no sign extension in the tail word or in a block word. -/
theorem test_murmur_high_byte :
    murmur32 [0x80] = 0x0FEB9E1D ∧ murmur32 [0xFF, 0xFF, 0xFF, 0xFF] = 0x76293B50 := by decide

/-- B20. -/
theorem test_rdreg_registers :
    [CtrlReg.state, .m, .k, .countLo, .countHi].map (readReg smallA) = [1, 10, 2, 1, 0] := by decide

/-- B21. -/
theorem test_rdreg_cap : answer (exec (.rdreg .capLo) State.reset) = some [0x06000000, 0x00100000] ∧
    answer (exec (.rdreg .capHi) smallA) = some [0x06000000, 0] := by decide

/-- B23, B26. -/
theorem test_rdbit_cells :
    answer (exec (.rdbit 1 0) smallA) = some [0x07000000, 1] ∧
    answer (exec (.rdbit 1 5) smallA) = some [0x07000000, 0] ∧
    answer (exec (.rdbit 1 9) smallA) = some [0x07000000, 0] := by decide

/-- B22, B24, B25. -/
theorem test_rdbit_errors :
    answer (exec (.rdbit 0 0) State.reset) = some [0x07000002, 0] ∧
    answer (exec (.rdbit 2 0) smallA) = some [0x07000001, 0] ∧
    answer (exec (.rdbit 0 10) smallA) = some [0x07000001, 0] := by decide

/-- The table of spec/95_test_vectors.md 2.1. -/
theorem test_primitives :
    mul32 0x811C9DA4 0x01000193 = 0xE40C292C ∧ mul32 0xFFFFFFFF 0xFFFFFFFF = 1 ∧
    add32 0xFFFFFFFF 1 = 0 ∧ rotl32 0x80000001 15 = 0x0000C000 ∧ rotl32 0x87EF2BB1 15 = 0x95D8C3F7 ∧
    shr32 0x80000000 13 = 0x00040000 ∧ xor32 0x811C9DC5 0x61 = 0x811C9DA4 := by decide

/-- I5, "hello" with `m = 1000`: the fifth round is the first whose sum passes 2^32. -/
theorem test_index_hello :
    [1, 2, 3, 4, 5, 6, 7].map (fun i => index 1335831723 613153351 i 1000) =
      [723, 351, 776, 127, 478, 829, 180] := by decide

/-- I9, the largest `m`; I7, `g = 0`. -/
theorem test_index_corners :
    index 3214735720 2764362941 3 4294967295 = 2917889953 ∧
    index 3214735720 2764362941 4 4294967295 = 1387285599 ∧
    [1, 2, 3].map (fun i => index 2166136261 0 i 10) = [1, 0, 1] := by decide

/-! ### Steps -/

/-- E17: an illegal header is one word, answered with its OPC. -/
theorem test_step_illegal :
    (after (step { State.reset with cmd := [0x02000001, 0x00000001, 0x00000061] })).map
      (fun t => (t.cmd, t.rsp)) = some ([0x00000001, 0x00000061], [0x02000003, 0]) := by decide

/-- R236: a command short of a word is not executed. -/
theorem test_step_waits :
    after (step { State.reset with cmd := [0x02000000, 5, 0x6C6C6568] }) =
      some { State.reset with cmd := [0x02000000, 5, 0x6C6C6568] } := by decide

/-- R230: a reset in the middle of a command, with a response owed. -/
theorem test_step_reset :
    after (step { smallA with cmd := [0x02000000, 5], rsp := [0x06000000, 1], host := [.reset, .word 7] }) =
      some { State.reset with host := [.word 7] } := by decide

/-- R237: with one response held, the command word waits and the response word goes first. -/
theorem test_step_back_pressure :
    after (step { State.reset with rsp := [0x06000000, 0], host := [.word 7, .accept] }) =
      some { State.reset with rsp := [0], host := [.word 7], received := [0x06000000] } := by decide

/-! ### Every statement with hypotheses has a state and operands that meet them -/

theorem test_witness_decodeOfEncode : WellFormed (.add [0x61, 0xFF, 0, 0, 1]) ∧
    WellFormed (.rdreg .capHi) ∧ WellFormed (.initMk 0 0xFFFFFFFF) := by decide

theorem test_witness_decodingConsumes :
    decode [0x07000000, 1, 5, 0] = .command (.rdbit 1 5) [0] := by decide

/-- With every word but the last, and with none. -/
theorem test_witness_fewerWords :
    (WellFormed (.add [0x61]) ∧ 2 < (encode (.add [0x61])).length) ∧ 0 < (encode (.rdreg .m)).length := by
  decide

/-- One byte, no byte, and the largest `LEN`. -/
theorem test_witness_keyIsRecovered :
    ([0x00000061] : List Word).length = ((1 : Word).toNat + 3) / 4 ∧
    ([] : List Word).length = ((0 : Word).toNat + 3) / 4 ∧
    (List.replicate (2 ^ 30) (0 : Word)).length = ((0xFFFFFFFF : Word).toNat + 3) / 4 :=
  ⟨by decide, by decide, by rw [List.length_replicate]; decide⟩

/-- Two payloads of one key, different in their pad bytes. -/
theorem test_witness_keyPadBytes :
    ([0xFFFFFF61] : List Word).length = ([0x00000061] : List Word).length ∧
    ∀ j < (1 : Word).toNat, payloadByte [0xFFFFFF61] j = payloadByte [0x00000061] j := by decide

/-- A block, and a tail of one byte. -/
theorem test_witness_payloadWords :
    0 < ([1, 2, 3, 4, 5] : Key).length / 4 ∧ ([1, 2, 3, 4, 5] : Key).length % 4 ≠ 0 := by decide

/-- Each clause of R76 at its edges. -/
theorem test_witness_illegalHeaders :
    IllegalWord 0x00FFFFFF ∧ IllegalWord 0x08000000 ∧ IllegalWord 0x01000001 ∧ IllegalWord 0x07FFFFFF ∧
      IllegalWord 0x06000100 ∧ IllegalWord 0x06000007 ∧ ¬ IllegalWord 0x06000006 ∧
      ¬ IllegalWord 0x01000000 ∧ ¬ IllegalWord 0x07000000 := by
  simp only [IllegalWord]
  refine ⟨?_, ?_, ?_, ?_, ?_, ?_, ?_, ?_, ?_⟩ <;> decide

theorem test_witness_illegalHeaderState :
    ({ State.reset with cmd := [0x08000000, 1] } : State).cmd = 0x08000000 :: [1] := rfl

theorem test_witness_stepRuns :
    decode ({ State.reset with cmd := [0x06000000, 1] } : State).cmd = .command (.rdreg .state) [1] := by
  decide

theorem test_witness_missingWords :
    decode ({ small with cmd := [0x01000000, 3], host := [.accept] } : State).cmd = .incomplete ∧
    ∀ e ∈ ({ small with cmd := [0x01000000, 3], host := [.accept] } : State).host, e = .accept := by
  decide

/-- Both channels, in one state. -/
theorem test_witness_channels :
    let s : State := { small with rspDepth := 2, rsp := [0x06000000, 0] }
    decode s.cmd = .incomplete ∧ (s.rsp.length + 1) / 2 < s.rspDepth ∧ s.rsp = 0x06000000 :: [0] ∧
      ({ s with host := [.word 1, .reset] } : State).host = .word 1 :: [.reset] ∧
      ({ s with host := [.accept] } : State).host = .accept :: [] := by decide

/-- One word of the only response left, the least that fills the buffer. -/
theorem test_witness_fullBuffer :
    let s : State := { small with rsp := [0], host := [.word 1] }
    decode s.cmd = .incomplete ∧ s.rspDepth ≤ (s.rsp.length + 1) / 2 ∧
      (∀ e ∈ s.host, ∃ w, e = HostEvent.word w) ∧
      s.rsp = 0 :: [] ∧ (([] : List Word).length + 1) / 2 < s.rspDepth ∧
      ({ s with host := [.word 1, .accept] } : State).host = .word 1 :: .accept :: [] :=
  ⟨by decide, by decide, by simp, rfl, by decide, rfl⟩

theorem test_witness_delivered :
    let s : State := { small with host := [.word 0x06000000, .accept] }
    WellFormed (.rdreg .state) ∧ s.cmd = [] ∧ (s.rsp.length + 1) / 2 < s.rspDepth ∧
      s.host = (encode (.rdreg .state)).map HostEvent.word ++ [.accept] := by decide

theorem test_witness_resetEvent :
    let s : State := { smallA with cmd := [0x02000000], host := [.reset, .accept] }
    decode s.cmd = .incomplete ∧ s.host = .reset :: [.accept] := by decide

/-- A step that constructs the filter. -/
theorem test_witness_lifecycleUp :
    step { State.reset with cmd := [0x01000000, 10, 2] } =
      .next { small with rsp := [0x01000000, 0] } ∧ State.reset.init = false ∧ small.init = true :=
  ⟨next_of_after _ _ (by decide), rfl, rfl⟩

/-- A step that loses it, a command word that the full block cannot take pending before the reset. -/
theorem test_witness_lifecycleDown :
    step { smallA with rsp := [0], host := [.word 5, .reset] } =
      .next { State.reset with host := [.word 5] } ∧
    smallA.init = true ∧ State.reset.init = false :=
  ⟨next_of_after _ _ (by decide), rfl, rfl⟩

/-- The least and the greatest rotation, the last bit, the first round of the third branch. -/
theorem test_witness_primitives : (0 < 1 ∧ 1 < 32) ∧ (0 < 31 ∧ 31 < 32) ∧ 31 < 32 ∧ 2 < 3 := by decide

/-- The first, second, third and last round, the least `m`. -/
theorem test_witness_index : 1 ≤ 1 ∧ 1 < 2 ^ 32 ∧ 1 ≤ 2 ∧ 2 < 2 ^ 32 ∧ 2 < 3 ∧ 1 ≤ 2 ^ 32 - 1 ∧
    2 ^ 32 - 1 < 2 ^ 32 := by decide

/-- The largest filter of the reference configuration, and the smallest. -/
theorem test_witness_initMkConstructs :
    State.reset.init = false ∧ 1 ≤ (1024 : Word).toNat ∧
      (1024 : Word).toNat * (1024 : Word).toNat ≤ State.reset.bitsMax.toNat ∧
      1 ≤ (1 : Word).toNat ∧ (1 : Word).toNat * (1 : Word).toNat ≤ State.reset.bitsMax.toNat := by decide

/-- One state for each of the three errors; the product one above the limit. -/
theorem test_witness_initMkErrors :
    small.init = true ∧ State.reset.init = false ∧ ((0 : Word) = 0 ∨ (2 : Word) = 0) ∧
      (1048577 : Word) ≠ 0 ∧ (1 : Word) ≠ 0 ∧
      State.reset.bitsMax.toNat < (1048577 : Word).toNat * (1 : Word).toNat := by decide

theorem test_witness_add : small.init = true ∧ 1 ≤ small.m.toNat := by decide

/-- The smallest filter, one vector of one bit. -/
theorem test_witness_smallest :
    let s : State := { State.reset with init := true, m := 1, k := 1 }
    s.init = true ∧ 1 ≤ s.m.toNat ∧ 1 ≤ s.k.toNat := by decide

/-- `AddAgainChangesNoBit`, and the statements about an `exec` that answers a next state. -/
theorem test_witness_addAgain : small.Inv ∧ small.init = true ∧
    exec (.add [0x61]) small = .next { smallA with rsp := [0x02000000, 0] } :=
  ⟨test_small_inv, rfl, next_of_after _ _ (by decide)⟩

theorem test_witness_emptyFilter :
    small.init = true ∧ 1 ≤ small.m.toNat ∧ 1 ≤ small.k.toNat ∧
      ∀ v idx, small.hasCell v idx → small.bit v idx = false :=
  ⟨by decide, by decide, by decide, fun _ _ _ => rfl⟩

/-- A key added, one command between, the key queried. -/
theorem test_witness_noFalseNegatives :
    let s : State := { small with cmd := [0x06000003] }
    let t : State := { s with bv := [(0, 0), (1, 0)], count := 1, rsp := [0x02000000, 0] }
    s.Inv ∧ exec (.add [0x61]) s = .next t ∧ t.rsp = s.rsp ++ [0x02000000, 0] ∧ t.noReset ∧
      run 1 t = .next { t with cmd := [], rsp := [0x02000000, 0, 0x06000000, 1] } :=
  ⟨test_small_inv.of_sameFilter ⟨rfl, rfl, rfl, rfl, rfl, rfl⟩ rfl, next_of_after _ _ (by decide), rfl,
    by unfold State.noReset; decide, next_of_after _ _ (by decide)⟩

theorem test_witness_invalidState : State.reset.init = false ∧ small.init = true := by decide

/-- The first and the last cell. -/
theorem test_witness_cells : small.hasCell 0 0 ∧ small.hasCell 1 9 ∧ ¬ small.hasCell 2 0 ∧
    ¬ small.hasCell 0 10 := by decide

theorem test_witness_wf : Memory.wf [] ∧ Memory.wf smallA.bv ∧ ¬ Memory.wf [(1, 0), (0, 0)] ∧
    ¬ Memory.wf [(0, 0), (0, 0)] ∧
    ∀ c, Memory.read smallA.bv c = Memory.read [(0, 0), (1, 0)] c :=
  ⟨by decide, by decide, by decide, by decide, fun _ => rfl⟩

/-- The last cell of the last vector, and the first values that are outside. -/
theorem test_witness_rdbit :
    smallA.init = true ∧ (1 : Word).toNat < smallA.k.toNat ∧ (9 : Word).toNat < smallA.m.toNat ∧
      smallA.k.toNat ≤ (2 : Word).toNat ∧ smallA.m.toNat ≤ (10 : Word).toNat := by decide

theorem test_witness_firstCondition : small.init = true → 1 ≤ small.m.toNat := by decide

/-- An error that changes nothing, and what its first response word says. -/
theorem test_witness_error :
    exec (.add [0x61]) State.reset = .next { State.reset with rsp := [0x02000002, 0] } ∧
      ({ State.reset with rsp := [0x02000002, 0] } : State).rsp =
        State.reset.rsp ++ [0x02000002, 0] ∧
      (0x02000002 : Word).toNat % 2 ^ 8 ≠ 0 :=
  ⟨next_of_after _ _ (by decide), rfl, by decide⟩

/-- The five commands without effect, each with its outcome. -/
theorem test_witness_reads :
    exec (.query [0x62]) smallA = .next { smallA with rsp := [0x03000000, 0] } ∧
    exec (.rdbit 1 9) smallA = .next { smallA with rsp := [0x07000000, 0] } ∧
    exec (.rdreg .k) smallA = .next { smallA with rsp := [0x06000000, 2] } ∧
    exec (.hashFnv []) smallA = .next { smallA with rsp := [0x04000000, 0x811C9DC5] } ∧
    exec (.hashMur []) smallA = .next { smallA with rsp := [0x05000000, 0] } :=
  ⟨next_of_after _ _ (by decide), next_of_after _ _ (by decide), next_of_after _ _ (by decide),
    next_of_after _ _ (by decide), next_of_after _ _ (by decide)⟩

/-- `INIT_MK` on a filter that is Initialized, and on one that is not. -/
theorem test_witness_initMkFrame :
    exec (.initMk 5 5) small = .next { small with rsp := [0x01000002, 0] } ∧ small.init = true ∧
      exec (.initMk 10 2) State.reset = .next { small with rsp := [0x01000000, 0] } :=
  ⟨next_of_after _ _ (by decide), rfl, next_of_after _ _ (by decide)⟩

/-- Cells that no round of `ADD "a"` addresses, in a vector it writes and in one past the last. -/
theorem test_witness_addFrame :
    ∀ c ∈ [(0, 1), (2, 0)], ∀ i, 1 ≤ i → i ≤ small.k.toNat →
      c ≠ (i - 1, index (fnv32 [0x61]) (murmur32 [0x61]) i small.m.toNat) := by
  intro c hc i h1 h2
  have hk : small.k.toNat = 2 := by decide
  have hi : i = 1 ∨ i = 2 := by omega
  revert c
  rcases hi with rfl | rfl <;> decide

theorem test_witness_sameFilter :
    SameFilter small { small with rsp := [3], host := [.accept], rspDepth := 5 } ∧
      exec (.rdreg .m) small = .next { small with rsp := [0x06000000, 10] } :=
  ⟨⟨rfl, rfl, rfl, rfl, rfl, rfl⟩, next_of_after _ _ (by decide)⟩

/-- A step of a well-formed state, no reset pending. -/
theorem test_witness_step :
    let s : State := { small with cmd := [0x06000001], host := [.accept] }
    s.Inv ∧ s.noReset ∧ s.init = true ∧
      step s = .next { s with cmd := [], rsp := [0x06000000, 10] } ∧
      run 1 s = .next { s with cmd := [], rsp := [0x06000000, 10] } :=
  ⟨test_small_inv.of_sameFilter ⟨rfl, rfl, rfl, rfl, rfl, rfl⟩ rfl, by unfold State.noReset; decide, rfl,
    next_of_after _ _ (by decide), next_of_after _ _ (by decide)⟩

/-- A stream of two commands. -/
theorem test_witness_stream :
    let s : State := { small with cmd := [0x02000000, 1, 0x61, 0x06000003] }
    s.Inv ∧ (∀ i ∈ [Instr.add [0x61], .rdreg .countLo], WellFormed i) ∧
      s.cmd = encodeAll [.add [0x61], .rdreg .countLo] :=
  ⟨test_small_inv.of_sameFilter ⟨rfl, rfl, rfl, rfl, rfl, rfl⟩ rfl, by simp, by decide⟩

/-! ### Sizing -/

theorem log_quarter : Real.log (1 / 4 : Real) = -(2 * Real.log 2) := by
  rw [show (1 / 4 : Real) = (2 ^ 2)⁻¹ by norm_num, Real.log_inv, Real.log_pow]
  norm_num

theorem log_two_div_sqrt : Real.log 2 / Real.sqrt (Real.log 2) = Real.sqrt (Real.log 2) :=
  Real.div_sqrt

theorem sqrt_log_two_bounds : 1 / 2 ≤ Real.sqrt (Real.log 2) ∧ Real.sqrt (Real.log 2) < 1 := by
  have h1 := Real.log_two_gt_d9
  have h2 := Real.log_two_lt_d9
  constructor
  · exact Real.le_sqrt_of_sq_le (by norm_num; linarith)
  · rw [Real.sqrt_lt' one_pos]; linarith

/-- Z5: `size_np(1, 0.5) = (1, 2)`. -/
theorem test_size_half : SizeNp 1 (1 / 2) 1 2 := by
  obtain ⟨h1, h2⟩ := sqrt_log_two_bounds
  have hl : |Real.log (1 / 2 : Real)| = Real.log 2 := by
    rw [one_div, Real.log_inv, abs_neg, abs_of_pos (Real.log_pos one_lt_two)]
  refine ⟨⟨le_rfl, by norm_num, by norm_num⟩, ?_, ?_⟩
  · unfold SizeM
    rw [hl, Int.cast_one, mul_one, log_two_div_sqrt, Int.floor_eq_zero_iff.2 ⟨by linarith, h2⟩]
    norm_num
  · unfold SizeK
    rw [one_div_one_div, Real.logb_self_eq_one one_lt_two]
    norm_num

/-- `size_np(1, 0.25) = (2, 3)`: a smaller `p`, both results larger. -/
theorem test_size_quarter : SizeNp 1 (1 / 4) 2 3 := by
  obtain ⟨h1, h2⟩ := sqrt_log_two_bounds
  have hl : |Real.log (1 / 4 : Real)| = 2 * Real.log 2 := by
    rw [log_quarter, abs_neg, abs_of_pos (by linarith [Real.log_pos one_lt_two])]
  refine ⟨⟨le_rfl, by norm_num, by norm_num⟩, ?_, ?_⟩
  · unfold SizeM
    have hf : ⌊2 * Real.sqrt (Real.log 2)⌋ = 1 := by
      rw [Int.floor_eq_iff]
      constructor <;> push_cast <;> linarith
    rw [hl, Int.cast_one, mul_one, mul_div_assoc, log_two_div_sqrt, hf]
    norm_num
  · unfold SizeK
    have hb : Real.logb 2 (1 / (1 / 4)) = 2 := by
      rw [one_div_one_div, show (4 : Real) = 2 ^ (2 : Real) by norm_num,
        Real.logb_rpow two_pos (by norm_num)]
    rw [hb]
    norm_num

theorem test_witness_sizing : SizeDomain 1 (1 / 2) ∧ SizeNp 1 (1 / 2) 1 2 ∧
    SizeNp 1 (1 / 4) 2 3 ∧ (1 / 4 : Real) ≤ 1 / 2 ∧ SizeNp 1 ((1 / 2 : Real) ^ 1) 1 2 :=
  ⟨test_size_half.1, test_size_half, test_size_quarter, by norm_num, by
    rw [pow_one]; exact test_size_half⟩

/-- R79: one command for a legal input; an error of the host for `n = 0` (Z11). -/
theorem test_witness_initNp : InitNpExpands 1 (1 / 2) (.command (.initMk 1 2)) ∧
    InitNpExpands 0 (1 / 2) .invalidParameter :=
  ⟨⟨1, 2, test_size_half, by norm_num, by norm_num, rfl⟩, by simp [InitNpExpands, SizeDomain]⟩

/-- R79: for `n = 2^33` and `p = 0.5`, `m` does not fit a word. -/
theorem test_witness_initNpCapacity : InitNpExpands (2 ^ 33) (1 / 2) .capacityExceeded := by
  obtain ⟨h1, -⟩ := sqrt_log_two_bounds
  have hl : |Real.log (1 / 2 : Real)| = Real.log 2 := by
    rw [one_div, Real.log_inv, abs_neg, abs_of_pos (Real.log_pos one_lt_two)]
  have hm : (2 ^ 32 : Int) ≤ ⌊|Real.log (1 / 2 : Real)| * ((2 ^ 33 : Int) : Real)
      / Real.sqrt (Real.log 2)⌋ := by
    rw [hl, mul_div_right_comm, log_two_div_sqrt, Int.le_floor]
    push_cast
    linarith
  refine ⟨(⌊|Real.log (1 / 2 : Real)| * ((2 ^ 33 : Int) : Real)
      / Real.sqrt (Real.log 2)⌋ + 1).toNat, 2,
    ⟨⟨by norm_num, by norm_num, by norm_num⟩, ?_, test_size_half.2.2⟩, .inl (by omega)⟩
  unfold SizeM
  omega

end Sys2Proof.Machine.Tests
end

section
/-! PROOFS. The family of spec/00_scope.md: the decoder on encoded streams, every command's
totality, what keeps the invariant, and the arithmetic primitives. -/

namespace Sys2Proof.Machine

/-! ### The decoder on the words of a command (R72, R73, R75) -/

/-- The operands of a key command decode to its key, whatever follows them (R73). -/
theorem decodeKey_packKey (mk : Key → Instr) (key : Key) (rest : List Word) (hk : KeyFits key) :
    decodeKey mk (BitVec.ofNat 32 key.length :: (packKey key ++ rest)) = .command (mk key) rest := by
  have hlen : (BitVec.ofNat 32 key.length).toNat = key.length := Nat.mod_eq_of_lt hk
  rw [decodeKey_complete _ _ _ _ (by rw [hlen, Laws.EncodeShape.packKey_length]), hlen,
    unpackKey_packKey]

/-- With one of a key command's operand words missing, its operands are incomplete (R73). -/
theorem decodeKey_take_packKey (mk : Key → Instr) (key : Key) (n : Nat) (hk : KeyFits key)
    (hn : n < (packKey key).length + 1) :
    decodeKey mk ((BitVec.ofNat 32 key.length :: packKey key).take n) = .incomplete := by
  have hlen : (BitVec.ofNat 32 key.length).toNat = key.length := Nat.mod_eq_of_lt hk
  cases n with
  | zero => rfl
  | succ n =>
    refine decodeKey_short mk _ _ ?_
    rw [hlen, ← Laws.EncodeShape.packKey_length, List.length_take]
    omega

/-- With one of two operand words missing, they are incomplete. -/
theorem decodeTwo_take_short (mk : Word → Word → Instr) (a b : Word) (n : Nat) (hn : n < 2) :
    decodeTwo mk ([a, b].take n) = .incomplete := by
  interval_cases n <;> rfl

/-! What the decoder makes of the operands after each legal header (R72). -/

theorem decode_initMk_header (ws : List Word) :
    decode (headerWord 0x01 0 :: ws) = decodeTwo .initMk ws := by simp [decode]

theorem decode_add_header (ws : List Word) :
    decode (headerWord 0x02 0 :: ws) = decodeKey .add ws := by simp [decode]

theorem decode_query_header (ws : List Word) :
    decode (headerWord 0x03 0 :: ws) = decodeKey .query ws := by simp [decode]

theorem decode_hashFnv_header (ws : List Word) :
    decode (headerWord 0x04 0 :: ws) = decodeKey .hashFnv ws := by simp [decode]

theorem decode_hashMur_header (ws : List Word) :
    decode (headerWord 0x05 0 :: ws) = decodeKey .hashMur ws := by simp [decode]

theorem decode_rdreg_header (r : CtrlReg) (ws : List Word) :
    decode (headerWord 0x06 ((ctrlRegNumber r).setWidth 24) :: ws) = .command (.rdreg r) ws := by
  simp [decode]

theorem decode_rdbit_header (ws : List Word) :
    decode (headerWord 0x07 0 :: ws) = decodeTwo .rdbit ws := by simp [decode]

/-- Decoding the words of a command that can be sent gives it back, whatever follows (R72, R75). -/
theorem decode_encode_append (i : Instr) (rest : List Word) (hi : WellFormed i) :
    decode (encode i ++ rest) = .command i rest := by
  cases i with
  | initMk m k => exact decode_initMk_header _
  | add key => exact (decode_add_header _).trans (decodeKey_packKey .add key rest hi)
  | query key => exact (decode_query_header _).trans (decodeKey_packKey .query key rest hi)
  | hashFnv key => exact (decode_hashFnv_header _).trans (decodeKey_packKey .hashFnv key rest hi)
  | hashMur key => exact (decode_hashMur_header _).trans (decodeKey_packKey .hashMur key rest hi)
  | rdreg r => exact decode_rdreg_header r rest
  | rdbit v idx => exact decode_rdbit_header _

/-- With one of a command's words missing, the decoder waits (R75, R236). -/
theorem decode_take_encode (i : Instr) (n : Nat) (hi : WellFormed i) (hn : n < (encode i).length) :
    decode ((encode i).take n) = .incomplete := by
  cases n with
  | zero => rfl
  | succ n =>
    have hops : n < (encode i).tail.length := by rw [List.length_tail]; omega
    cases i with
    | initMk m k =>
      exact (decode_initMk_header _).trans (decodeTwo_take_short .initMk m k n hops)
    | add key =>
      exact (decode_add_header _).trans (decodeKey_take_packKey .add key n hi hops)
    | query key =>
      exact (decode_query_header _).trans (decodeKey_take_packKey .query key n hi hops)
    | hashFnv key =>
      exact (decode_hashFnv_header _).trans (decodeKey_take_packKey .hashFnv key n hi hops)
    | hashMur key =>
      exact (decode_hashMur_header _).trans (decodeKey_take_packKey .hashMur key n hi hops)
    | rdreg r => exact absurd hops (Nat.not_lt_zero n)
    | rdbit v idx =>
      exact (decode_rdbit_header _).trans (decodeTwo_take_short .rdbit v idx n hops)

/-! ### Every command answers a next state (R7, R51) -/

/-- No command stops the machine in a state whose filter, once Initialized, has `M >= 1`. -/
theorem exec_total (i : Instr) (s : State) (hm : s.init = true → 1 ≤ s.m.toNat) :
    ∃ t, exec i s = .next t := by
  cases i with
  | initMk m k =>
    cases hc : checkInitMk s m k <;> exact ⟨_, by simp only [exec, execInitMk, hc]; rfl⟩
  | add key =>
    cases hc : checkFilter s with
    | some e => exact ⟨_, by simp only [exec, execAdd, hc]; rfl⟩
    | none =>
      obtain ⟨u, hu⟩ := setRounds_total (fnv32 key) (murmur32 key) s.k.toNat 1 s
        (hm ((checkFilter_eq_none s).1 hc)) le_rfl (by omega)
      exact ⟨_, by simp only [exec, execAdd, hc, hu]; rfl⟩
  | query key =>
    cases hc : checkFilter s with
    | some e => exact ⟨_, by simp only [exec, execQuery, hc]; rfl⟩
    | none =>
      obtain ⟨b, hb, -⟩ := testRounds_spec (fnv32 key) (murmur32 key) s
        (hm ((checkFilter_eq_none s).1 hc)) s.k.toNat 1 le_rfl (by omega)
      exact ⟨_, by simp only [exec, execQuery, hc, hb]; rfl⟩
  | hashFnv key => exact ⟨_, rfl⟩
  | hashMur key => exact ⟨_, rfl⟩
  | rdreg r => exact ⟨_, rfl⟩
  | rdbit v idx =>
    cases hc : checkRdbit s v idx with
    | some e => exact ⟨_, by simp only [exec, execRdbit, hc]; rfl⟩
    | none =>
      have hr := (memRead_eq_ok s v.toNat idx.toNat _).2
        ⟨((checkRdbit_eq_none s v idx).1 hc).2, rfl⟩
      exact ⟨_, by simp only [exec, execRdbit, hc, hr]; rfl⟩

/-! ### What keeps the invariant (R22 to R26) -/

/-- A response is not about the filter. -/
theorem State.Inv.after_respond {s : State} (h : s.Inv) (opc : Byte) (st : Status) (value : Word) :
    (respond opc st value s).Inv :=
  h.of_sameFilter ⟨rfl, rfl, rfl, rfl, rfl, rfl⟩ rfl

/-- Consuming command words is not about the filter. -/
theorem State.Inv.after_consume {s : State} (h : s.Inv) (rest : List Word) : (consume rest s).Inv :=
  h.of_sameFilter ⟨rfl, rfl, rfl, rfl, rfl, rfl⟩ rfl

/-- A successful `INIT_MK` leaves a well-formed filter (R26 c, R33). -/
theorem State.Inv.after_constructFilter {s : State} (h : s.Inv) (m k : Word) (hm : 1 ≤ m.toNat)
    (hk : 1 ≤ k.toNat) (hcap : m.toNat * k.toNat ≤ s.bitsMax.toNat) :
    (constructFilter m k s).Inv where
  canonical := List.Pairwise.nil
  inRange := by simp
  sized _ := ⟨hm, hk, hcap⟩
  unsized hi := by simp at hi
  capacity := h.capacity
  buffered := h.buffered

/-- Counting an `ADD` on an Initialized filter (R25). -/
theorem State.Inv.after_countAdd {s : State} (h : s.Inv) (hi : s.init = true) : (countAdd s).Inv where
  canonical := h.canonical
  inRange := h.inRange
  sized := h.sized
  unsized hf := by simp [hi] at hf
  capacity := h.capacity
  buffered := h.buffered

/-- The writes of `ADD` list only cells of rounds `1 .. K`, which exist (R51, R155). -/
theorem State.Inv.after_setRounds {s t : State} (h : s.Inv) (hi : s.init = true) (f g : Word)
    (ht : setRounds f g 1 s.k.toNat s = .ok t) : t.Inv := by
  obtain ⟨hframe, hwf, hbits⟩ := setRounds_spec f g _ _ _ _ ht
  obtain ⟨hm, -, -⟩ := h.sized hi
  have hrange : ∀ c ∈ t.bv, s.hasCell c.1 c.2 := by
    intro c hc
    obtain hold | ⟨j, hj, hjk, hcell⟩ := (hbits c.1 c.2).1 ((Memory.read_eq_true ..).2 hc)
    · exact h.inRange c ((Memory.read_eq_true ..).1 hold)
    · rw [show c = roundCell f g j s.m from hcell]
      exact roundCell_hasCell f g s j hm hj (by omega)
  rw [hframe]
  exact ⟨hwf h.canonical, hrange, h.sized, fun hf => by simp [hi] at hf, h.capacity, h.buffered⟩

/-- The reset event leaves a well-formed state (R32, R230). -/
theorem State.Inv.after_resetBlock {s : State} (h : s.Inv) : (resetBlock s).Inv where
  canonical := List.Pairwise.nil
  inRange := by simp
  sized hi := by simp at hi
  unsized _ := ⟨rfl, rfl, rfl, rfl⟩
  capacity := h.capacity
  buffered := h.buffered

/-- Every command keeps the invariant. -/
theorem State.Inv.after_exec {s t : State} (h : s.Inv) (i : Instr) (ht : exec i s = .next t) : t.Inv := by
  cases i with
  | initMk m k =>
    obtain ⟨e, -, rfl⟩ | ⟨hc, rfl⟩ := execInitMk_cases m k s t ht
    · exact h.after_respond ..
    · obtain ⟨-, hm, hk, hcap⟩ := (checkInitMk_eq_none s m k).1 hc
      exact (h.after_constructFilter m k hm hk hcap).after_respond ..
  | add key =>
    obtain ⟨-, rfl⟩ | ⟨hi, u, hu, rfl⟩ := execAdd_cases key s t ht
    · exact h.after_respond ..
    · have hui : u.init = true := by rw [(setRounds_spec _ _ _ _ _ _ hu).1]; exact hi
      exact ((h.after_setRounds hi _ _ hu).after_countAdd hui).after_respond ..
  | query key =>
    obtain ⟨-, rfl⟩ | ⟨-, b, -, rfl⟩ := execQuery_cases key s t ht <;> exact h.after_respond ..
  | hashFnv key => cases ht; exact h.after_respond ..
  | hashMur key => cases ht; exact h.after_respond ..
  | rdreg r => cases ht; exact h.after_respond ..
  | rdbit v idx =>
    obtain ⟨e, -, rfl⟩ | ⟨-, -, rfl⟩ := execRdbit_cases v idx s t ht <;> exact h.after_respond ..

/-- Every event of the host keeps the invariant, reset included. -/
theorem State.Inv.after_hostEvent {s : State} (h : s.Inv) (e : HostEvent) : (hostEvent e s).Inv := by
  cases e with
  | word w => exact h.of_sameFilter ⟨rfl, rfl, rfl, rfl, rfl, rfl⟩ rfl
  | accept =>
    show (transferResponse s).Inv
    unfold transferResponse
    split
    · exact h
    · exact h.of_sameFilter ⟨rfl, rfl, rfl, rfl, rfl, rfl⟩ rfl
  | reset => exact h.after_resetBlock

/-- The host's turn keeps the invariant. -/
theorem State.Inv.after_hostStep {s : State} (h : s.Inv) : (hostStep s).Inv := by
  obtain hs | ⟨e, before, after, -, -, -, hs⟩ := hostStep_cases s
  · rw [hs]; exact h
  · rw [hs]
    exact (h.of_sameFilter (t := { s with host := before ++ after })
      ⟨rfl, rfl, rfl, rfl, rfl, rfl⟩ rfl).after_hostEvent e

/-- Every step from a well-formed state leads to one. -/
theorem State.Inv.after_step {s t : State} (h : s.Inv) (ht : step s = .next t) : t.Inv := by
  obtain ⟨i, rest, -, hx⟩ | ⟨w, why, rest, -, rfl⟩ | ⟨-, rfl⟩ := step_cases s t ht
  · exact (h.after_consume rest).after_exec i hx
  · exact (h.after_consume rest).after_respond ..
  · exact h.after_hostStep

/-! ### Steps and runs -/

/-- A step runs the command whose words are all there (R6, R75). -/
theorem step_of_command {s : State} {i : Instr} {rest : List Word}
    (h : decode s.cmd = .command i rest) : step s = exec i (consume rest s) := by
  simp only [step, h]

/-- A step leaves the turn to the host while words are missing (R236). -/
theorem step_of_incomplete {s : State} (h : decode s.cmd = .incomplete) :
    step s = .next (hostStep s) := by
  simp only [step, h]

/-- A well-formed state has a next state (R7, R51). -/
theorem State.Inv.step_total {s : State} (h : s.Inv) : ∃ t, step s = .next t := by
  cases hd : decode s.cmd with
  | command i rest =>
    rw [step_of_command hd]
    exact exec_total i _ fun hi => (h.sized hi).1
  | illegal w why rest => exact ⟨_, by simp only [step, hd]; rfl⟩
  | incomplete => exact ⟨_, step_of_incomplete hd⟩

/-- What every step can make and keeps, a run of any length makes and keeps. -/
theorem run_total (P : State → Prop) (hP : ∀ s, P s → ∃ t, step s = .next t ∧ P t) (n : Nat) :
    ∀ s, P s → ∃ t, run n s = .next t ∧ P t := by
  induction n with
  | zero => exact fun s hs => ⟨s, rfl, hs⟩
  | succ n ih =>
    intro s hs
    obtain ⟨u, hu, hPu⟩ := hP s hs
    rw [run_succ n s u hu]
    exact ih u hPu

/-- A complete command of a well-formed state is executed: its words are gone, two response words are
owed for it, and the host has not moved (R6, R75, R77). -/
theorem State.Inv.step_command {s : State} {i : Instr} {rest : List Word} (h : s.Inv)
    (hd : decode s.cmd = .command i rest) :
    ∃ t, step s = .next t ∧ t.Inv ∧ t.cmd = rest ∧ t.host = s.host ∧
      t.rsp.length = s.rsp.length + 2 := by
  obtain ⟨t, ht⟩ := h.step_total
  obtain ⟨st, value, u, rfl, ⟨-, -, hcmd, hrsp, hhost, -⟩, -⟩ :=
    exec_responds i _ t (step_of_command hd ▸ ht)
  exact ⟨_, ht, h.after_step ht, hcmd, hhost, by simp [hrsp, encodeResponse]⟩

/-- A command word moves while words are missing and the block has room for a response (R70, R237). -/
theorem step_word {s : State} {w : Word} {es : List HostEvent} (hd : decode s.cmd = .incomplete)
    (hroom : heldResponses s < s.rspDepth) (hhost : s.host = .word w :: es) :
    step s = .next { s with cmd := s.cmd ++ [w], host := es } := by
  rw [step_of_incomplete hd]
  simp [hostStep, hhost, firstEvent, canHappen, hroom, hostEvent]

/-- A run of one step is that step. -/
theorem run_one (s : State) : run 1 s = step s := by
  cases h : step s <;> simp only [run, h]

/-- As long as no command is complete before the last of them, words the host sends arrive one a step. -/
theorem run_words (es : List HostEvent) (ws : List Word) : ∀ s : State,
    heldResponses s < s.rspDepth → s.host = ws.map HostEvent.word ++ es →
    (∀ n < ws.length, decode (s.cmd ++ ws.take n) = .incomplete) →
    run ws.length s = .next { s with cmd := s.cmd ++ ws, host := es } := by
  induction ws with
  | nil => rintro s - hhost -; simp [show es = s.host by simpa using hhost.symm]
  | cons w ws ih =>
    intro s hroom hhost hdec
    have hd : decode s.cmd = .incomplete := by simpa using hdec 0 (by simp)
    have htail := ih { s with cmd := s.cmd ++ [w], host := ws.map .word ++ es } hroom rfl
      fun n hn => by simpa using hdec (n + 1) (by simpa using hn)
    rw [List.length_cons, run_succ _ _ _ (step_word hd hroom hhost)]
    simpa using htail

/-! ### The arithmetic primitives (R9) -/

/-- The two halves of a rotated word share no bit. -/
theorem shiftLeft_and_ushiftRight_eq_zero (a : Word) (r : Nat) (hr : r < 32) :
    (a <<< r) &&& (a >>> (32 - r)) = 0#32 := by
  ext j hj
  by_cases hjr : j < r
  · simp [hjr]
  · simp [hjr, BitVec.getLsbD_of_ge a (32 - r + j) (by omega)]

/-- R9's rotate, which adds the two halves, is the library's. -/
theorem rotl32_eq_rotateLeft (a : Word) (r : Nat) (hr : r < 32) : rotl32 a r = a.rotateLeft r := by
  rw [rotl32, BitVec.add_eq_or_of_and_eq_zero _ _ (shiftLeft_and_ushiftRight_eq_zero a r hr),
    BitVec.rotateLeft_def, Nat.mod_eq_of_lt hr]

/-- The rotate on natural numbers: the sum of its two halves does not wrap. -/
theorem toNat_rotl32 (a : Word) (r : Nat) (hr : r < 32) :
    (rotl32 a r).toNat = a.toNat * 2 ^ r % 2 ^ 32 + a.toNat / 2 ^ (32 - r) := by
  rw [rotl32, BitVec.toNat_add_of_and_eq_zero (shiftLeft_and_ushiftRight_eq_zero a r hr),
    BitVec.toNat_shiftLeft, BitVec.toNat_ushiftRight, Nat.shiftLeft_eq, Nat.shiftRight_eq_div_pow]

/-- The rotate moves bit `j` to bit `(j + r) mod 32`. -/
theorem getLsbD_rotl32 (a : Word) (r j : Nat) (hr : r < 32) (hj : j < 32) :
    (rotl32 a r).getLsbD ((j + r) % 32) = a.getLsbD j := by
  rw [rotl32_eq_rotateLeft a r hr, BitVec.getLsbD_rotateLeft_of_le hr]
  by_cases hwrap : j + r < 32
  · rw [Nat.mod_eq_of_lt hwrap]
    simp [hwrap]
  · have hmod : (j + r) % 32 = j + r - 32 := by omega
    simp [hmod, show j + r - 32 < r by omega, show 32 - r + (j + r - 32) = j by omega]

/-! ### The obligations -/

/-- Settles O53: progress and preservation, packaged over runs. -/
theorem wellFormedStatesNeverStop : Obligations.WellFormedStatesNeverStop := by
  intro s n hs
  refine run_total State.Inv (fun u hu => ?_) n s hs
  obtain ⟨t, ht⟩ := hu.step_total
  exact ⟨t, ht, hu.after_step ht⟩

/-- Settles O55, by induction on the list of commands: each is decoded, and its step leaves the words of
the others. -/
theorem commandStreamRunsToItsEnd : Obligations.CommandStreamRunsToItsEnd := by
  intro is
  induction is with
  | nil => exact fun s hs _ hcmd => ⟨s, rfl, hs, hcmd, rfl, rfl⟩
  | cons i is ih =>
    intro s hs hwf hcmd
    obtain ⟨hi, his⟩ := List.forall_mem_cons.1 hwf
    have hd : decode s.cmd = .command i (encodeAll is) := by
      rw [hcmd]; exact decode_encode_append i (encodeAll is) hi
    obtain ⟨u, hu, huInv, hucmd, huhost, hursp⟩ := hs.step_command hd
    obtain ⟨t, ht, htInv, htcmd, hthost, htrsp⟩ := ih u huInv his hucmd
    refine ⟨t, (run_succ _ _ _ hu).trans ht, htInv, htcmd, hthost.trans huhost, ?_⟩
    rw [htrsp, hursp, List.length_cons]
    omega

/-- Settles O13: the words arrive one a step, and no command is complete before the last of them. -/
theorem deliveredCommandIsExecuted : Obligations.DeliveredCommandIsExecuted := by
  intro i s es hi hcmd hroom hhost
  have harrive : run (encode i).length s = .next { s with cmd := encode i, host := es } := by
    have h := run_words es (encode i) s hroom hhost fun n hn => by
      simpa [hcmd] using decode_take_encode i n hi hn
    simpa [hcmd] using h
  have hd : decode (encode i) = .command i [] := by simpa using decode_encode_append i [] hi
  refine ⟨harrive, ?_⟩
  rw [run_add _ 1 _ _ harrive, run_one, step_of_command hd]
  simp [consume, ← hcmd]

/-- Settles O17: each primitive by its own lemma. -/
theorem arithmeticPrimitives : Obligations.ArithmeticPrimitives := by
  refine ⟨fun a b => ⟨BitVec.toNat_xor .., BitVec.toNat_mul .., BitVec.toNat_add ..⟩,
    fun a r _ hr => ⟨?_, toNat_rotl32 a r hr, fun j hj => getLsbD_rotl32 a r j hr hj⟩,
    fun f g i m hi => ?_⟩
  · rw [shr32, BitVec.toNat_ushiftRight, Nat.shiftRight_eq_div_pow]
  · rw [index, if_neg (by omega), if_neg (by omega)]

/-- Settles O9: consuming is the record update of the statement. -/
theorem stepRunsDecodedCommand : Obligations.StepRunsDecodedCommand :=
  fun _ _ _ h => step_of_command h

end Sys2Proof.Machine
end

section
/-! PROOFS. The family of spec/10_state.md: what a command and a step can do to the filter, what a command
can see of the state, and what the control registers read. -/

namespace Sys2Proof.Machine

/-! ### One equation per outcome of a command

The inversion lemmas of these commands, the other way round. -/

/-- `INIT_MK` where a condition holds (R154, R205). -/
theorem exec_initMk_of_error {s : State} {m k : Word} {e : Status} (h : checkInitMk s m k = some e) :
    exec (.initMk m k) s = .next (raise 0x01 e s) := by
  simp only [exec, execInitMk, h]

/-- A successful `INIT_MK` (R154). -/
theorem exec_initMk_of_check {s : State} {m k : Word} (h : checkInitMk s m k = none) :
    exec (.initMk m k) s = .next (respond 0x01 .ok 0 (constructFilter m k s)) := by
  simp only [exec, execInitMk, h]

/-- `ADD` on an Uninitialized block (R155, R202). -/
theorem exec_add_of_uninitialized {s : State} (key : Key) (hi : s.init = false) :
    exec (.add key) s = .next (raise 0x02 .invalidState s) := by
  simp [exec, execAdd, checkFilter, hi]

/-- `ADD` whose writes are made (R155). -/
theorem exec_add_of_rounds {s u : State} {key : Key} (hi : s.init = true)
    (hu : setRounds (fnv32 key) (murmur32 key) 1 s.k.toNat s = .ok u) :
    exec (.add key) s = .next (respond 0x02 .ok 0 (countAdd u)) := by
  simp only [exec, execAdd, (checkFilter_eq_none s).2 hi, hu]

/-- `QUERY` on an Uninitialized block (R156, R202). -/
theorem exec_query_of_uninitialized {s : State} (key : Key) (hi : s.init = false) :
    exec (.query key) s = .next (raise 0x03 .invalidState s) := by
  simp [exec, execQuery, checkFilter, hi]

/-- `QUERY` whose tests are made (R156). -/
theorem exec_query_of_rounds {s : State} {key : Key} {b : Bool} (hi : s.init = true)
    (hb : testRounds (fnv32 key) (murmur32 key) s 1 s.k.toNat = .ok b) :
    exec (.query key) s = .next (respond 0x03 .ok (bitValue b) s) := by
  simp only [exec, execQuery, (checkFilter_eq_none s).2 hi, hb]

/-- `RDBIT` where a condition holds (R191, R205). -/
theorem exec_rdbit_of_error {s : State} {v idx : Word} {e : Status}
    (h : checkRdbit s v idx = some e) : exec (.rdbit v idx) s = .next (raise 0x07 e s) := by
  simp only [exec, execRdbit, h]

/-- `RDBIT` of a cell that is read (R191). -/
theorem exec_rdbit_of_read {s : State} {v idx : Word} {b : Bool} (h : checkRdbit s v idx = none)
    (hb : memRead s v.toNat idx.toNat = .ok b) :
    exec (.rdbit v idx) s = .next (respond 0x07 .ok (bitValue b) s) := by
  simp only [exec, execRdbit, h, hb]

/-! ### What leaves the filter as it is (R20) -/

/-- Every event of the host but a reset leaves the filter as it is (R70). -/
theorem sameFilter_hostEvent (e : HostEvent) (s : State) (he : e ≠ .reset) :
    SameFilter s (hostEvent e s) := by
  cases e with
  | word w => exact ⟨rfl, rfl, rfl, rfl, rfl, rfl⟩
  | accept => cases hr : s.rsp <;> simp [SameFilter, hostEvent, transferResponse, hr]
  | reset => exact absurd rfl he

/-- No event writes the list of the pending ones. -/
@[simp] theorem hostEvent_host (e : HostEvent) (s : State) : (hostEvent e s).host = s.host := by
  cases e with
  | word w => rfl
  | accept => cases hr : s.rsp <;> simp [hostEvent, transferResponse, hr]
  | reset => rfl

/-! ### A filter that grows (R26) -/

/-- A filter that stays has grown by nothing. -/
theorem SameFilter.grewTo {s t : State} (h : SameFilter s t) (hi : s.init = true) : s.grewTo t := by
  obtain ⟨hinit, hm, hk, hbv, hcount, -⟩ := h
  refine ⟨hinit ▸ hi, hm.symm, hk.symm, hcount ▸ le_rfl, fun v idx hb => ?_⟩
  rwa [State.bit, ← hbv]

/-- Growth composes. -/
theorem State.grewTo.trans {s t u : State} (h : s.grewTo t) (h' : t.grewTo u) : s.grewTo u := by
  obtain ⟨-, hm, hk, hcount, hbits⟩ := h
  obtain ⟨hi', hm', hk', hcount', hbits'⟩ := h'
  exact ⟨hi', hm'.trans hm, hk'.trans hk, hcount.trans hcount',
    fun v idx hb => hbits' v idx (hbits v idx hb)⟩

/-- `COUNT` after one more `ADD`, as a number (R25). -/
theorem countAdd_count_toNat (s : State) :
    (countAdd s).count.toNat = min (s.count.toNat + 1) (2 ^ 64 - 1) := by
  rw [countAdd_count, BitVec.toNat_ofNat, Nat.mod_eq_of_lt (by omega)]

/-- Counting one more never lowers `COUNT`, at saturation included (R25, R26 d). -/
theorem State.grewTo_countAdd {s : State} (hi : s.init = true) : s.grewTo (countAdd s) := by
  refine ⟨hi, rfl, rfl, ?_, fun v idx hb => hb⟩
  have hlt := s.count.isLt
  rw [countAdd_count_toNat]
  omega

/-- The frame of the writes of `ADD`. -/
theorem setRounds_frame {s t : State} {f g : Word} {i n : Nat} (h : setRounds f g i n s = .ok t) :
    t.init = s.init ∧ t.m = s.m ∧ t.k = s.k ∧ t.count = s.count ∧ t.rsp = s.rsp := by
  rw [(setRounds_spec f g n i s t h).1]
  exact ⟨rfl, rfl, rfl, rfl, rfl⟩

/-- The writes of `ADD` clear no bit (R26 b, R155). -/
theorem State.grewTo_of_setRounds {s t : State} {f g : Word} {i n : Nat} (hi : s.init = true)
    (h : setRounds f g i n s = .ok t) : s.grewTo t := by
  obtain ⟨-, -, hbits⟩ := setRounds_spec f g n i s t h
  obtain ⟨hinit, hm, hk, hcount, -⟩ := setRounds_frame h
  exact ⟨hinit.trans hi, hm, hk, hcount ▸ le_rfl, fun v idx hb => (hbits v idx).2 (.inl hb)⟩

/-! ### What a command and a step can do to the filter (R20, R21) -/

/-- What a command can do to the filter: leave it, construct it when it is a successful `INIT_MK`, or let it
grow when it is an `ADD` on an Initialized filter. -/
theorem exec_filter_cases (i : Instr) (s t : State) (h : exec i s = .next t) :
    SameFilter s t ∨
      (∃ m k, i = .initMk m k ∧ checkInitMk s m k = none ∧
        t = respond 0x01 .ok 0 (constructFilter m k s)) ∨
      (∃ key, i = .add key ∧ s.init = true ∧ s.grewTo t) := by
  have answered : ∀ opc st value, SameFilter s (respond opc st value s) :=
    fun _ _ _ => ⟨rfl, rfl, rfl, rfl, rfl, rfl⟩
  cases i with
  | initMk m k =>
    obtain ⟨e, -, rfl⟩ | ⟨hc, rfl⟩ := execInitMk_cases m k s t h
    · exact .inl (answered ..)
    · exact .inr (.inl ⟨m, k, rfl, hc, rfl⟩)
  | add key =>
    obtain ⟨-, rfl⟩ | ⟨hi, u, hu, rfl⟩ := execAdd_cases key s t h
    · exact .inl (answered ..)
    · have hgrew := State.grewTo_of_setRounds hi hu
      exact .inr (.inr ⟨key, rfl, hi, hgrew.trans (State.grewTo_countAdd hgrew.1)⟩)
  | query key =>
    obtain ⟨-, rfl⟩ | ⟨-, b, -, rfl⟩ := execQuery_cases key s t h <;> exact .inl (answered ..)
  | hashFnv key => cases h; exact .inl (answered ..)
  | hashMur key => cases h; exact .inl (answered ..)
  | rdreg r => cases h; exact .inl (answered ..)
  | rdbit v idx =>
    obtain ⟨e, -, rfl⟩ | ⟨-, -, rfl⟩ := execRdbit_cases v idx s t h <;> exact .inl (answered ..)

/-- What a step can do to the filter: leave it, construct it, let it grow, or discard it in a reset. -/
theorem step_filter_cases (s t : State) (h : step s = .next t) :
    SameFilter s t ∨
      (∃ m k rest, decode s.cmd = .command (.initMk m k) rest ∧ checkInitMk s m k = none ∧
        t = respond 0x01 .ok 0 (constructFilter m k (consume rest s))) ∨
      (∃ key rest, decode s.cmd = .command (.add key) rest ∧ s.init = true ∧ s.grewTo t) ∨
      (decode s.cmd = .incomplete ∧ ∃ before after, s.host = before ++ .reset :: after ∧
        t = resetBlock { s with host := before ++ after }) := by
  obtain ⟨i, rest, hd, hx⟩ | ⟨w, why, rest, -, rfl⟩ | ⟨hd, rfl⟩ := step_cases s t h
  · obtain hsame | ⟨m, k, rfl, hc, rfl⟩ | ⟨key, rfl, hi, hgrew⟩ := exec_filter_cases i _ t hx
    · exact .inl hsame
    · exact .inr (.inl ⟨m, k, rest, hd, hc, rfl⟩)
    · exact .inr (.inr (.inl ⟨key, rest, hd, hi, hgrew⟩))
  · exact .inl ⟨rfl, rfl, rfl, rfl, rfl, rfl⟩
  · obtain hs | ⟨e, before, after, -, hhost, -, hs⟩ := hostStep_cases s
    · rw [hs]
      exact .inl ⟨rfl, rfl, rfl, rfl, rfl, rfl⟩
    · rw [hs]
      by_cases he : e = .reset
      · subst he
        exact .inr (.inr (.inr ⟨hd, before, after, hhost, rfl⟩))
      · exact .inl (sameFilter_hostEvent e { s with host := before ++ after } he)

/-- A step adds no event of the host. -/
theorem step_host_subset {s t : State} (h : step s = .next t) : t.host ⊆ s.host := by
  obtain ⟨i, rest, -, hx⟩ | ⟨w, why, rest, -, rfl⟩ | ⟨-, rfl⟩ := step_cases s t h
  · obtain ⟨st, value, u, rfl, ⟨-, -, -, -, hhost, -⟩, -⟩ := exec_responds i _ t hx
    simp [hhost]
  · simp
  · obtain hs | ⟨e, before, after, -, hhost, -, hs⟩ := hostStep_cases s
    · simp [hs]
    · simp [hs, hhost]

/-- An Initialized filter grows in every step as long as no reset is pending (R26). -/
theorem step_grewTo {s t : State} (h : step s = .next t) (hi : s.init = true) (hn : s.noReset) :
    s.grewTo t := by
  obtain hsame | ⟨m, k, rest, -, hc, -⟩ | ⟨-, -, -, -, hgrew⟩ | ⟨-, before, after, hhost, -⟩ :=
    step_filter_cases s t h
  · exact hsame.grewTo hi
  · obtain ⟨hf, -⟩ := (checkInitMk_eq_none s m k).1 hc
    simp [hi] at hf
  · exact hgrew
  · exact absurd (by simp [hhost]) hn

/-! ### A command sees only the filter (R20, R165)

What commands read is the same where the filter is, and what they write leaves the same filter. -/

section
variable {s s' : State} (h : SameFilter s s')
include h

theorem SameFilter.init_eq : s.init = s'.init := let ⟨hi, _⟩ := h; hi

theorem SameFilter.m_eq : s.m = s'.m := let ⟨_, hm, _⟩ := h; hm

theorem SameFilter.k_eq : s.k = s'.k := let ⟨_, _, hk, _⟩ := h; hk

theorem SameFilter.bv_eq : s.bv = s'.bv := let ⟨_, _, _, hb, _⟩ := h; hb

theorem SameFilter.checkInitMk_eq (m k : Word) : checkInitMk s m k = checkInitMk s' m k := by
  obtain ⟨hi, -, -, -, -, hx⟩ := h
  simp only [checkInitMk, hi, hx]

theorem SameFilter.checkRdbit_eq (v idx : Word) : checkRdbit s v idx = checkRdbit s' v idx := by
  simp only [checkRdbit, h.init_eq, h.m_eq, h.k_eq]

theorem SameFilter.hasCell_iff (v idx : Nat) : s.hasCell v idx ↔ s'.hasCell v idx := by
  rw [State.hasCell, State.hasCell, h.m_eq, h.k_eq]

theorem SameFilter.memRead_eq (v idx : Nat) : memRead s v idx = memRead s' v idx := by
  simp only [memRead, State.bit, h.hasCell_iff, h.bv_eq]

theorem SameFilter.readReg_eq (r : CtrlReg) : readReg s r = readReg s' r := by
  obtain ⟨hi, hm, hk, -, hc, hx⟩ := h
  cases r <;> simp only [readReg, hi, hm, hk, hc, hx]

theorem SameFilter.testRounds_eq (f g : Word) (n : Nat) :
    ∀ i, testRounds f g s i n = testRounds f g s' i n := by
  induction n with
  | zero => exact fun _ => rfl
  | succ n ih =>
    intro i
    simp only [testRounds, h.memRead_eq, h.m_eq, ih]

theorem SameFilter.after_setBit (v idx : Nat) (b : Bool) :
    SameFilter (s.setBit v idx b) (s'.setBit v idx b) := by
  obtain ⟨hi, hm, hk, hb, hc, hx⟩ := h
  exact ⟨hi, hm, hk, by simp [hb], hc, hx⟩

theorem SameFilter.after_respond (opc : Byte) (st : Status) (value : Word) :
    SameFilter (respond opc st value s) (respond opc st value s') := h

theorem SameFilter.after_constructFilter (m k : Word) :
    SameFilter (constructFilter m k s) (constructFilter m k s') := by
  obtain ⟨-, -, -, -, -, hx⟩ := h
  exact ⟨rfl, rfl, rfl, rfl, rfl, hx⟩

theorem SameFilter.after_countAdd : SameFilter (countAdd s) (countAdd s') := by
  obtain ⟨hi, hm, hk, hb, hc, hx⟩ := h
  exact ⟨hi, hm, hk, hb, by simp [hc], hx⟩

end

/-- The writes of `ADD` see only the filter. -/
theorem SameFilter.after_setRounds (f g : Word) (n : Nat) : ∀ (i : Nat) (s s' t : State),
    SameFilter s s' → setRounds f g i n s = .ok t →
      ∃ t', setRounds f g i n s' = .ok t' ∧ SameFilter t t' := by
  induction n with
  | zero =>
    intro i s s' t h ht
    cases ht
    exact ⟨s', rfl, h⟩
  | succ n ih =>
    intro i s s' t h ht
    simp only [setRounds] at ht ⊢
    split at ht
    · cases ht
    · rename_i u hu
      obtain ⟨hcell, rfl⟩ := (memWrite_eq_ok ..).1 hu
      rw [← h.m_eq, (memWrite_eq_ok s' _ _ _ true).2 ⟨(h.hasCell_iff ..).1 hcell, rfl⟩]
      exact ih _ _ _ t (h.after_setBit ..) ht

/-- A command that completes in a state completes in every other with the same filter, with the same
response, and leaves the same filter. -/
theorem exec_sameFilter (i : Instr) {s s' t : State} (h : SameFilter s s') (ht : exec i s = .next t) :
    ∃ opc st value u u', exec i s' = .next (respond opc st value u') ∧ t = respond opc st value u ∧
      SameFilter u u' ∧ u.rsp = s.rsp ∧ u'.rsp = s'.rsp := by
  cases i with
  | initMk m k =>
    obtain ⟨e, hc, rfl⟩ | ⟨hc, rfl⟩ := execInitMk_cases m k s t ht <;> rw [h.checkInitMk_eq] at hc
    · exact ⟨0x01, e, 0, s, s', exec_initMk_of_error hc, rfl, h, rfl, rfl⟩
    · exact ⟨0x01, .ok, 0, _, _, exec_initMk_of_check hc, rfl, h.after_constructFilter m k, rfl, rfl⟩
  | add key =>
    obtain ⟨hi, rfl⟩ | ⟨hi, u, hu, rfl⟩ := execAdd_cases key s t ht <;> rw [h.init_eq] at hi
    · exact ⟨0x02, .invalidState, 0, s, s', exec_add_of_uninitialized key hi, rfl, h, rfl, rfl⟩
    · obtain ⟨u', hu', hsame⟩ := SameFilter.after_setRounds _ _ _ _ _ _ _ h hu
      obtain ⟨-, -, -, -, hrsp⟩ := setRounds_frame hu
      obtain ⟨-, -, -, -, hrsp'⟩ := setRounds_frame hu'
      rw [h.k_eq] at hu'
      exact ⟨0x02, .ok, 0, countAdd u, countAdd u', exec_add_of_rounds hi hu', rfl,
        hsame.after_countAdd, hrsp, hrsp'⟩
  | query key =>
    obtain ⟨hi, rfl⟩ | ⟨hi, b, hb, rfl⟩ := execQuery_cases key s t ht <;> rw [h.init_eq] at hi
    · exact ⟨0x03, .invalidState, 0, s, s', exec_query_of_uninitialized key hi, rfl, h, rfl, rfl⟩
    · rw [h.testRounds_eq, h.k_eq] at hb
      exact ⟨0x03, .ok, bitValue b, s, s', exec_query_of_rounds hi hb, rfl, h, rfl, rfl⟩
  | hashFnv key => cases ht; exact ⟨0x04, .ok, _, s, s', rfl, rfl, h, rfl, rfl⟩
  | hashMur key => cases ht; exact ⟨0x05, .ok, _, s, s', rfl, rfl, h, rfl, rfl⟩
  | rdreg r => cases ht; exact ⟨0x06, .ok, _, s, s', rfl, by rw [h.readReg_eq], h, rfl, rfl⟩
  | rdbit v idx =>
    obtain ⟨e, hc, rfl⟩ | ⟨hc, hcell, rfl⟩ := execRdbit_cases v idx s t ht <;>
      rw [h.checkRdbit_eq] at hc
    · exact ⟨0x07, e, 0, s, s', exec_rdbit_of_error hc, rfl, h, rfl, rfl⟩
    · have hread := (memRead_eq_ok s _ _ _).2 ⟨hcell, rfl⟩
      rw [h.memRead_eq] at hread
      exact ⟨0x07, .ok, _, s, s', exec_rdbit_of_read hc hread, rfl, h, rfl, rfl⟩

/-! ### What single commands answer -/

/-- A response as the two words it is sent in (R77). -/
theorem respond_eq (opc : Byte) (st : Status) (value : Word) (s : State) :
    respond opc st value s = { s with
      rsp := s.rsp ++ [BitVec.ofNat 32 (opc.toNat * 2 ^ 24 + (statusCode st).toNat), value] } := by
  rw [respond, encodeResponse_eq]

/-- A filter with every cell 0 answers 0 to every `QUERY`: its first round misses (R156, R164). -/
theorem exec_query_of_empty {s : State} (key : Key) (hi : s.init = true) (hm : 1 ≤ s.m.toNat)
    (hk : 1 ≤ s.k.toNat) (hempty : ∀ v idx, s.hasCell v idx → s.bit v idx = false) :
    exec (.query key) s = .next (respond 0x03 .ok 0 s) := by
  obtain ⟨b, hb, hall⟩ :=
    testRounds_spec (fnv32 key) (murmur32 key) s hm s.k.toNat 1 le_rfl (by omega)
  have hmiss := hempty _ _ (roundCell_hasCell (fnv32 key) (murmur32 key) s 1 hm le_rfl hk)
  have hfalse : b = false := by
    rw [Bool.eq_false_iff]
    intro hbt
    simp [hall.1 hbt 1 le_rfl (by omega)] at hmiss
  exact exec_query_of_rounds hi (hfalse ▸ hb)

/-- `RDREG` answers the register (R190). -/
theorem exec_rdreg (r : CtrlReg) (s : State) :
    exec (.rdreg r) s = .next { s with rsp := s.rsp ++ [0x06000000, readReg s r] } := by
  simp only [exec, execRdreg, respond_eq]
  rfl

/-- The low half of a 64-bit register as a number (R31). -/
theorem extractLsb'_low (x : DWord) : x.extractLsb' 0 32 = BitVec.ofNat 32 (x.toNat % 2 ^ 32) := by
  apply BitVec.eq_of_toNat_eq
  simp

/-- The high half of a 64-bit register as a number (R31). -/
theorem extractLsb'_high (x : DWord) : x.extractLsb' 32 32 = BitVec.ofNat 32 (x.toNat / 2 ^ 32) := by
  apply BitVec.eq_of_toNat_eq
  simp [Nat.shiftRight_eq_div_pow]

/-- A bit as a VALUE is the number 1 or 0 (R77). -/
theorem bitValue_eq (b : Bool) : bitValue b = if b then 1 else 0 := by
  cases b <;> rfl

/-! ### The obligations -/

/-- Settles O52: the step lemma of the invariant. -/
theorem stepKeepsInvariant : Obligations.StepKeepsInvariant :=
  fun _ _ hs h => hs.after_step h

/-- Settles O54: growth from `s`, the absence of a reset and the invariant are kept by every step. -/
theorem filterOnlyGrows : Obligations.FilterOnlyGrows := by
  intro s t n hs hi hn hrun
  obtain ⟨hgrew, -, hInv⟩ := run_keeps (fun u => s.grewTo u ∧ u.noReset ∧ u.Inv)
    (fun u v ⟨hgrew, hnu, hu⟩ hstep =>
      ⟨hgrew.trans (step_grewTo hstep hgrew.1 hnu), fun hr => hnu (step_host_subset hstep hr),
        hu.after_step hstep⟩)
    n s t ⟨SameFilter.grewTo ⟨rfl, rfl, rfl, rfl, rfl, rfl⟩ hi, hn, hs⟩ hrun
  exact ⟨hgrew, hInv.sized hgrew.1⟩

/-- Settles O15: of what a step can do to the filter, only a successful `INIT_MK` raises `INIT` and only a
reset lowers it. -/
theorem lifecycleTransitions : Obligations.LifecycleTransitions := by
  refine ⟨rfl, fun s t h hs ht => ?_, fun s t h hs ht => ?_⟩
  · obtain ⟨hsame, -⟩ | ⟨m, k, rest, hd, -, rfl⟩ | ⟨-, -, -, hi, -⟩ | ⟨-, before, after, -, rfl⟩ :=
      step_filter_cases s t h
    · simp [← hsame, hs] at ht
    · exact ⟨m, k, rest, hd, rfl, rfl, rfl⟩
    · simp [hs] at hi
    · simp at ht
  · obtain ⟨hsame, -⟩ | ⟨m, k, rest, -, -, rfl⟩ | ⟨-, -, -, -, hi, -⟩ |
      ⟨hd, before, after, hhost, rfl⟩ := step_filter_cases s t h
    · simp [← hsame, hs] at ht
    · simp at ht
    · simp [hi] at ht
    · exact ⟨hd, before, after, hhost, rfl⟩

/-- Settles O28: the constructed filter has no cell that holds 1, so every `QUERY` of it misses. -/
theorem initMkConstructsFilter : Obligations.InitMkConstructsFilter := by
  intro m k s hi hm hk hcap
  have hempty : ∀ v idx, (respond 0x01 .ok 0 (constructFilter m k s)).bit v idx = false :=
    fun v idx => Memory.read_nil (v, idx)
  exact ⟨_, exec_initMk_of_check ((checkInitMk_eq_none s m k).2 ⟨hi, hm, hk, hcap⟩), rfl, hempty,
    fun key => exec_query_of_empty key rfl hm hk fun v idx _ => hempty v idx⟩

/-- Settles O30: the writes of rounds `1 .. K` set one cell in each of the vectors `0 .. K - 1`. -/
theorem addSetsOneCellInEachVector : Obligations.AddSetsOneCellInEachVector := by
  intro key s hi hm
  obtain ⟨t, ht⟩ := exec_total (.add key) s fun _ => hm
  refine ⟨t, ht, ?_⟩
  obtain ⟨hf, -⟩ | ⟨-, u, hu, rfl⟩ := execAdd_cases key s t ht
  · simp [hi] at hf
  obtain ⟨hframe, -, hbits⟩ := setRounds_spec _ _ _ _ _ _ hu
  obtain ⟨-, -, -, hcount, -⟩ := setRounds_frame hu
  refine ⟨?_, ?_, fun v idx => ?_⟩
  · rw [respond_eq, countAdd, hframe]
    rfl
  · rw [respond_count, countAdd_count_toNat, hcount]
  · rw [Bool.eq_iff_iff, Bool.or_eq_true, decide_eq_true_eq]
    refine (hbits v idx).trans (or_congr_right ⟨?_, ?_⟩)
    · rintro ⟨j, hj, hjk, hcell⟩
      obtain ⟨rfl, rfl⟩ := Prod.mk.inj hcell
      exact ⟨by omega, by rw [Nat.sub_add_cancel hj]⟩
    · rintro ⟨hv, rfl⟩
      exact ⟨v + 1, by omega, by omega, rfl⟩

/-- Settles O48: neither a command's effect nor an event of the host writes a parameter. -/
theorem parametersAreNeverWritten : Obligations.ParametersAreNeverWritten := by
  intro s t h
  obtain ⟨i, rest, -, hx⟩ | ⟨w, why, rest, -, rfl⟩ | ⟨-, rfl⟩ := step_cases s t h
  · obtain ⟨st, value, u, rfl, ⟨hbits, hdepth, -⟩, -⟩ := exec_responds i _ t hx
    exact ⟨hbits, hdepth⟩
  · exact ⟨rfl, rfl⟩
  · obtain hs | ⟨e, before, after, -, -, -, hs⟩ := hostStep_cases s
    · rw [hs]
      exact ⟨rfl, rfl⟩
    · rw [hs]
      exact hostEvent_parameters e { s with host := before ++ after }

/-- Settles O49: the response is appended to each channel's own words. -/
theorem commandsSeeOnlyTheFilter : Obligations.CommandsSeeOnlyTheFilter := by
  intro i s s' t h ht
  obtain ⟨opc, st, value, u, u', hx, rfl, hsame, hrsp, hrsp'⟩ := exec_sameFilter i h ht
  exact ⟨_, encodeResponse ⟨opc, st, value⟩, hx, hsame.after_respond ..,
    by simp [hrsp], by simp [hrsp']⟩

/-- Settles O16: the fields of the state after reset. -/
theorem stateAfterReset : Obligations.StateAfterReset :=
  ⟨rfl, rfl, rfl, rfl, rfl, rfl, rfl⟩

/-- Settles O39: `RDREG` answers the register, and the halves of a 64-bit one are numbers. -/
theorem rdregReadsTheRegister : Obligations.RdregReadsTheRegister := by
  intro s
  simp only [exec_rdreg, readReg, extractLsb'_low, extractLsb'_high, and_true]
  rw [← bitValue_eq]
  rfl

/-- Settles O51: no cell and no size, and both parameters are at least 1. -/
theorem resetIsWellFormed : Obligations.ResetIsWellFormed where
  canonical := Memory.reset_wf
  inRange := by simp [State.reset]
  sized h := by simp [State.reset] at h
  unsized _ := ⟨rfl, rfl, rfl, rfl⟩
  capacity := by decide
  buffered := le_rfl

end Sys2Proof.Machine
end

section
/-! PROOFS. The family of spec/20_memory.md: the bit-vector memory and its canonical form, what `ADD` and
the reading commands leave unchanged, the words a key is sent in, and the response stream. -/

namespace Sys2Proof.Machine

/-! ### The bit-vector memory (R51, R52) -/

/-- A write is no business of the other cells (R51). -/
theorem memRead_setBit_of_ne (s : State) (v idx : Nat) (b : Bool) {v' idx' : Nat}
    (h : (v', idx') ≠ (v, idx)) : memRead (s.setBit v idx b) v' idx' = memRead s v' idx' := by
  simp only [memRead, State.hasCell, setBit_k, setBit_m, State.bit_setBit, if_neg h]

/-- Canonical memories that read the same list the same cells, in the one strictly rising order. -/
theorem Memory.eq_of_read_eq {mem mem' : Memory} (hwf : Memory.wf mem) (hwf' : Memory.wf mem')
    (h : ∀ c, Memory.read mem c = Memory.read mem' c) : mem = mem' := by
  have : Std.Irrefl CellLt := ⟨Cell.lt_irrefl⟩
  have : Std.Antisymm CellLt :=
    ⟨fun c _ hcd hdc => absurd (Cell.lt_trans hcd hdc) (Cell.lt_irrefl c)⟩
  refine hwf.eq_of_mem_iff hwf' fun c => ?_
  rw [← Memory.read_eq_true, h, Memory.read_eq_true]

/-! ### The writes of ADD (R53, R155) -/

/-- Cells that no round addresses keep their bit (R155). -/
theorem setRounds_bit_of_ne {s t : State} {f g : Word} {i n : Nat} (h : setRounds f g i n s = .ok t)
    {v idx : Nat} (hne : ∀ j, i ≤ j → j < i + n → (v, idx) ≠ roundCell f g j s.m) :
    t.bit v idx = s.bit v idx := by
  obtain ⟨-, -, hbits⟩ := setRounds_spec f g n i s t h
  rw [Bool.eq_iff_iff, hbits, or_iff_left]
  rintro ⟨j, hij, hjn, hcell⟩
  exact hne j hij hjn hcell

/-- After the writes of an `ADD` the filter remembers its key (R155). -/
theorem remembers_of_setRounds {s t : State} {key : Key}
    (h : setRounds (fnv32 key) (murmur32 key) 1 s.k.toNat s = .ok t) : t.remembers key := by
  obtain ⟨-, -, hbits⟩ := setRounds_spec _ _ _ _ _ _ h
  obtain ⟨-, hm, hk, -⟩ := setRounds_frame h
  intro i hi hik
  rw [hk] at hik
  rw [hbits, hm]
  exact .inr ⟨i, hi, by omega, rfl⟩

/-- The writes of a key that the filter remembers change no bit (R53). -/
theorem setRounds_bv_of_remembers {s t : State} {key : Key} (hwf : Memory.wf s.bv)
    (hkey : s.remembers key)
    (h : setRounds (fnv32 key) (murmur32 key) 1 s.k.toNat s = .ok t) : t.bv = s.bv := by
  obtain ⟨-, hwft, hbits⟩ := setRounds_spec _ _ _ _ _ _ h
  refine Memory.eq_of_read_eq (hwft hwf) hwf fun c => Bool.eq_iff_iff.2 ?_
  refine (hbits c.1 c.2).trans (or_iff_left_of_imp ?_)
  rintro ⟨j, hj, hjk, hcell⟩
  obtain ⟨hv, hidx⟩ := Prod.mk.inj hcell
  rw [hv, hidx]
  exact hkey j hj (by omega)

/-- `ADD` on an Initialized filter leaves one that remembers the key (R155). -/
theorem remembers_of_exec_add {s t : State} {key : Key} (hi : s.init = true)
    (h : exec (.add key) s = .next t) : t.init = true ∧ t.remembers key := by
  obtain ⟨hf, -⟩ | ⟨-, u, hu, rfl⟩ := execAdd_cases key s t h
  · simp [hi] at hf
  · obtain ⟨hinit, -⟩ := setRounds_frame hu
    have hkey : u.remembers key := remembers_of_setRounds hu
    exact ⟨hinit.trans hi, hkey⟩

/-- `ADD` of a key that the filter remembers only counts (R53, R155). -/
theorem exec_add_of_remembers {s : State} {key : Key} (hs : s.Inv) (hi : s.init = true)
    (hkey : s.remembers key) : exec (.add key) s = .next (respond 0x02 .ok 0 (countAdd s)) := by
  obtain ⟨hm, -⟩ := hs.sized hi
  obtain ⟨t, ht⟩ := setRounds_total (fnv32 key) (murmur32 key) s.k.toNat 1 s hm le_rfl (by omega)
  have hts : t = s := by
    rw [(setRounds_spec _ _ _ _ _ _ ht).1, setRounds_bv_of_remembers hs.canonical hkey ht]
  exact exec_add_of_rounds hi (hts ▸ ht)

/-! ### The reading commands (R54) -/

/-- The commands that read the filter and write none of it: all but `INIT_MK` and `ADD` (R54). -/
def ReadsOnly : Instr → Prop
  | .initMk _ _ => False
  | .add _ => False
  | .query _ => True
  | .hashFnv _ => True
  | .hashMur _ => True
  | .rdreg _ => True
  | .rdbit _ _ => True

/-- A reading command does nothing but answer, whatever it answers (R54). -/
theorem exec_of_readsOnly {i : Instr} {s t : State} (hi : ReadsOnly i) (h : exec i s = .next t) :
    ∃ response, t = { s with rsp := s.rsp ++ response } := by
  cases i with
  | initMk m k => exact hi.elim
  | add key => exact hi.elim
  | query key =>
    obtain ⟨-, rfl⟩ | ⟨-, b, -, rfl⟩ := execQuery_cases key s t h <;> exact ⟨_, rfl⟩
  | hashFnv key => cases h; exact ⟨_, rfl⟩
  | hashMur key => cases h; exact ⟨_, rfl⟩
  | rdreg r => cases h; exact ⟨_, rfl⟩
  | rdbit v idx =>
    obtain ⟨e, -, rfl⟩ | ⟨-, -, rfl⟩ := execRdbit_cases v idx s t h <;> exact ⟨_, rfl⟩

/-! ### The words of a key (R57, R122, R124) -/

/-- A byte in its lane as a number (R122). -/
theorem lane_toNat (b : Byte) {j : Nat} (hj : j < 4) : (lane b j).toNat = 2 ^ (8 * j) * b.toNat := by
  have hb := b.isLt
  interval_cases j <;> simp [lane, zext32, Nat.shiftLeft_eq] <;> omega

/-- A byte or-ed into the lane above those filled so far is added, and fills that lane. -/
theorem or_lane (w : Word) (b : Byte) {j : Nat} (hj : j < 4) (hw : w.toNat < 2 ^ (8 * j)) :
    w ||| lane b j = w + lane b j ∧ (w + lane b j).toNat < 2 ^ (8 * (j + 1)) := by
  have hor : (w ||| lane b j).toNat = 2 ^ (8 * j) * b.toNat + w.toNat := by
    rw [BitVec.toNat_or, lane_toNat b hj, Nat.lor_comm, Nat.two_pow_add_eq_or_of_lt hw]
  have heq : w ||| lane b j = w + lane b j := by
    apply BitVec.eq_of_toNat_eq
    rw [BitVec.toNat_add, lane_toNat b hj, Nat.add_comm w.toNat, ← hor,
      Nat.mod_eq_of_lt (BitVec.isLt _)]
  refine ⟨heq, ?_⟩
  calc (w + lane b j).toNat = 2 ^ (8 * j) * b.toNat + w.toNat := by rw [← heq, hor]
    _ < 2 ^ (8 * j) * (b.toNat + 1) := by rw [Nat.mul_add_one]; omega
    _ ≤ 2 ^ (8 * j) * 2 ^ 8 := Nat.mul_le_mul_left _ b.isLt
    _ = 2 ^ (8 * (j + 1)) := (pow_add 2 (8 * j) 8).symm

/-- A payload word is the sum of its byte lanes (R57, R122). -/
theorem packWord_eq_lanes (b0 b1 b2 b3 : Byte) :
    packWord b0 b1 b2 b3 = lane b0 0 + lane b1 1 + lane b2 2 + lane b3 3 := by
  have hlt0 : (lane b0 0).toNat < 2 ^ (8 * 1) := by simpa [lane_toNat] using b0.isLt
  obtain ⟨h1, hlt1⟩ := or_lane _ b1 (j := 1) (by omega) hlt0
  obtain ⟨h2, hlt2⟩ := or_lane _ b2 (j := 2) (by omega) hlt1
  obtain ⟨h3, -⟩ := or_lane _ b3 (j := 3) (by omega) hlt2
  rw [← h3, ← h2, ← h1]
  simp [packWord, lane, zext32]

/-- A pad byte 0 adds nothing to its lane (R78), the literals in simp's own form. -/
@[simp] theorem lane_zero_byte (j : Nat) : lane 0#8 j = 0#32 := by simp [lane, zext32]

/-- Past the first four bytes, a key's bytes are those of the rest. -/
@[simp] theorem keyByte_add_four (b0 b1 b2 b3 : Byte) (rest : Key) (j : Nat) :
    keyByte (b0 :: b1 :: b2 :: b3 :: rest) (j + 4) = keyByte rest j := rfl

/-- Past the first block, a key's blocks are those of the rest (R122). -/
theorem blockword_succ (b0 b1 b2 b3 : Byte) (rest : Key) (b : Nat) :
    blockword (b0 :: b1 :: b2 :: b3 :: rest) (b + 1) = blockword rest b := rfl

/-- A first block takes no part in the tail (R124). -/
theorem tailword_of_block (b0 b1 b2 b3 : Byte) (rest : Key) :
    tailword (b0 :: b1 :: b2 :: b3 :: rest) = tailword rest := by
  have hmod : (rest.length + 4) % 4 = rest.length % 4 := by omega
  have hdiv : ∀ j, 4 * ((rest.length + 4) / 4) + j = 4 * (rest.length / 4) + j + 4 := by omega
  simp only [tailword, List.length_cons, hmod, hdiv, keyByte_add_four]

/-- A full payload word is a block of the key (R57, R122). -/
theorem packKey_getD_block : ∀ (key : Key) (b : Nat), b < key.length / 4 →
    (packKey key).getD b 0 = blockword key b
  | [], _, h | [_], _, h | [_, _], _, h | [_, _, _], _, h => by simp at h
  | b0 :: b1 :: b2 :: b3 :: _, 0, _ => packWord_eq_lanes b0 b1 b2 b3
  | b0 :: b1 :: b2 :: b3 :: rest, b + 1, h => by
    rw [blockword_succ, ← packKey_getD_block rest b (by simp only [List.length_cons] at h; omega)]
    rfl

/-- The last payload word of a key with a tail is the tail word: the pad bytes add nothing (R124). -/
theorem packKey_getD_tail : ∀ key : Key, key.length % 4 ≠ 0 →
    (packKey key).getD (key.length / 4) 0 = tailword key
  | [], h => absurd rfl h
  | [_], _ | [_, _], _ | [_, _, _], _ => by
    simp [packKey, packWord_eq_lanes, tailword, List.range_succ, keyByte]
  | b0 :: b1 :: b2 :: b3 :: rest, h => by
    have hdiv : (rest.length + 4) / 4 = rest.length / 4 + 1 := by omega
    have ih := packKey_getD_tail rest (by simp only [List.length_cons] at h; omega)
    rw [tailword_of_block, ← ih]
    simp only [packKey, List.length_cons, hdiv, List.getD_cons_succ]

/-! ### The response stream (R63, R237) -/

/-- Every event of the host but a reset keeps the response stream (R70). -/
theorem hostEvent_stream (e : HostEvent) (s : State) (he : e ≠ .reset) :
    (hostEvent e s).received ++ (hostEvent e s).rsp = s.received ++ s.rsp := by
  cases e with
  | word w => rfl
  | accept => exact transferResponse_stream s
  | reset => exact absurd rfl he

/-! ### The obligations -/

/-- Settles O36: a read after a write. -/
theorem cellReadsWhatWasWritten : Obligations.CellReadsWhatWasWritten := by
  intro s v idx b hcell
  refine ⟨s.setBit v idx b, (memWrite_eq_ok ..).2 ⟨hcell, rfl⟩, (memRead_eq_ok ..).2 ⟨hcell, ?_⟩,
    fun v' idx' hne => memRead_setBit_of_ne s v idx b hne⟩
  rw [State.bit_setBit, if_pos rfl]

/-- Settles O38: strictly rising lists of the same cells are equal. -/
theorem canonicalMemoryIsItsReads : Obligations.CanonicalMemoryIsItsReads :=
  fun _ _ => Memory.eq_of_read_eq

/-- Settles O47: the writes of rounds `1 .. K`, the count and the response are all `ADD` does. -/
theorem addFrame : Obligations.AddFrame := by
  intro key s t h
  obtain ⟨-, rfl⟩ | ⟨-, u, hu, rfl⟩ := execAdd_cases key s t h
  · exact ⟨rfl, fun _ _ _ => rfl⟩
  · refine ⟨?_, fun v idx hne => setRounds_bit_of_ne hu fun j hj hjk => hne j hj (by omega)⟩
    rw [(setRounds_spec _ _ _ _ _ _ hu).1]
    rfl

/-- Settles O31: the filter already remembers the key, so the second `ADD` only counts. -/
theorem addAgainChangesNoBit : Obligations.AddAgainChangesNoBit := by
  intro key s t hs hi ht
  obtain ⟨hit, hkey⟩ := remembers_of_exec_add hi ht
  exact ⟨_, exec_add_of_remembers (hs.after_exec _ ht) hit hkey, rfl, countAdd_count_toNat t⟩

/-- Settles O45: a reading command only answers, and what it answers is given by the filter. -/
theorem readsHaveNoSideEffects : Obligations.ReadsHaveNoSideEffects := by
  intro i s t hi h
  have hreads : ReadsOnly i := by
    obtain ⟨_, rfl⟩ | ⟨_, _, rfl⟩ | ⟨_, rfl⟩ | ⟨_, rfl⟩ | ⟨_, rfl⟩ := hi <;> trivial
  obtain ⟨response, rfl⟩ := exec_of_readsOnly hreads h
  refine ⟨response, rfl, fun u hu => ?_⟩
  obtain ⟨t', response', ht', -, hs, hu'⟩ := commandsSeeOnlyTheFilter i s u _ hu h
  obtain ⟨more, rfl⟩ := exec_of_readsOnly hreads ht'
  rw [ht', List.append_cancel_left hs, List.append_cancel_left hu']

/-- Settles O50: a command or an illegal header appends its response, and without a reset the host at
most transfers one word. -/
theorem responsesAreNeverDropped : Obligations.ResponsesAreNeverDropped := by
  intro s t h hn
  obtain ⟨i, rest, -, hx⟩ | ⟨w, why, rest, -, rfl⟩ | ⟨-, rfl⟩ := step_cases s t h
  · obtain ⟨st, value, u, rfl, ⟨-, -, -, hrsp, -, hreceived⟩, -⟩ := exec_responds i _ t hx
    exact ⟨encodeResponse ⟨opcodeOf i, st, value⟩, by simp [hrsp, hreceived]⟩
  · exact ⟨encodeResponse ⟨opcOf w, .illegalCommand, 0⟩, by simp⟩
  · refine ⟨[], ?_⟩
    rw [List.append_nil]
    obtain hs | ⟨e, before, after, -, hhost, -, hs⟩ := hostStep_cases s <;> rw [hs]
    refine hostEvent_stream e _ ?_
    rintro rfl
    exact hn (by simp [hhost])

/-- Settles O5: four bytes at a time, along the key. -/
theorem payloadWordsAreMurmurWords : Obligations.PayloadWordsAreMurmurWords :=
  fun key => ⟨Laws.EncodeShape.packKey_length key, packKey_getD_block key, packKey_getD_tail key⟩

end Sys2Proof.Machine
end

section
/-! PROOFS. The family of spec/30_encoding.md: decoding undoes encoding and uses up exactly one command,
the key of a payload, the illegal headers, the words of a response, the host's `INIT_NP`, and the two
channels. -/

namespace Sys2Proof.Machine

/-! ### What a decoded command used up (R72, R74, R75) -/

/-- A command has its header and its operand words (R72). -/
theorem encode_length (i : Instr) :
    (encode i).length = Laws.EncodeShape.operandWords i + 1 := by
  have hshape : Laws.EncodeShape.Statement i := by
    cases i with
    | initMk m k => exact Laws.EncodeShape.initMk m k
    | add key => exact Laws.EncodeShape.add key
    | query key => exact Laws.EncodeShape.query key
    | hashFnv key => exact Laws.EncodeShape.hashFnv key
    | hashMur key => exact Laws.EncodeShape.hashMur key
    | rdreg r => exact Laws.EncodeShape.rdreg r
    | rdbit v idx => exact Laws.EncodeShape.rdbit v idx
  obtain ⟨h, operands, henc, -, hlen⟩ := hshape
  rw [henc, List.length_cons, hlen]

/-- Two operand words that are decoded are used up. -/
theorem decodeTwo_eq_command {mk : Word → Word → Instr} {s rest : List Word} {i : Instr}
    (h : decodeTwo mk s = .command i rest) : ∃ a b, i = mk a b ∧ s = [a, b] ++ rest := by
  obtain ⟨hs, -⟩ | ⟨a, b, rest', rfl, hs⟩ := decodeTwo_cases mk s
  · simp [hs] at h
  · obtain ⟨rfl, rfl⟩ : mk a b = i ∧ rest' = rest := by simpa [hs] using h
    exact ⟨a, b, rfl, rfl⟩

/-- A key that is decoded fits `LEN`, and `LEN` and its payload words are used up (R73). -/
theorem decodeKey_eq_command {mk : Key → Instr} {s rest : List Word} {i : Instr}
    (h : decodeKey mk s = .command i rest) :
    ∃ key operands, i = mk key ∧ KeyFits key ∧ s = operands ++ rest ∧
      operands.length = 1 + ceil4 key.length := by
  obtain hs | ⟨len, payload, rest', rfl, hlen, hs⟩ := decodeKey_cases mk s
  · simp [hs] at h
  · obtain ⟨rfl, rfl⟩ : mk (unpackKey len.toNat payload) = i ∧ rest' = rest := by
      simpa [hs] using h
    have hkey : (unpackKey len.toNat payload).length = len.toNat := length_unpackKey _ _ hlen.ge
    refine ⟨_, len :: payload, rfl, ?_, rfl, ?_⟩
    · rw [KeyFits, hkey]; exact len.isLt
    · rw [List.length_cons, hlen, hkey, Nat.add_comm]

/-- A decoded command can be sent; its header and its operand words are used up (R72, R74). -/
theorem decode_eq_command {ws rest : List Word} {i : Instr} (h : decode ws = .command i rest) :
    WellFormed i ∧ ∃ hdr operands, ws = hdr :: (operands ++ rest) ∧ (encode i).head? = some hdr ∧
      operands.length = Laws.EncodeShape.operandWords i := by
  cases ws with
  | nil => simp [decode] at h
  | cons hdr s =>
    obtain ⟨why, hr⟩ | ⟨hr, rfl⟩ | ⟨hr, rfl⟩ | ⟨hr, rfl⟩ | ⟨hr, rfl⟩ | ⟨hr, rfl⟩ | ⟨r, hr, rfl⟩ |
      ⟨hr, rfl⟩ := readHeader_cases hdr <;> simp only [decode, hr] at h
    · cases h
    · obtain ⟨m, k, rfl, rfl⟩ := decodeTwo_eq_command h
      exact ⟨trivial, _, _, rfl, rfl, rfl⟩
    iterate 4
      · obtain ⟨key, operands, rfl, hfits, rfl, hlen⟩ := decodeKey_eq_command h
        exact ⟨hfits, _, operands, rfl, rfl, hlen⟩
    · obtain ⟨rfl, rfl⟩ : Instr.rdreg r = i ∧ s = rest := by simpa using h
      exact ⟨trivial, _, [], rfl, rfl, rfl⟩
    · obtain ⟨v, idx, rfl, rfl⟩ := decodeTwo_eq_command h
      exact ⟨trivial, _, _, rfl, rfl, rfl⟩

/-! ### The key of a payload (R73) -/

/-- A byte lane as a number (R57). -/
theorem wordByte_eq_ofNat (w : Word) (j : Nat) :
    wordByte w j = BitVec.ofNat 8 (w.toNat / 2 ^ (8 * j)) := by
  rw [← Nat.shiftRight_eq_div_pow]
  rfl

/-- Byte `j` of the words of a payload is the byte that R73 names. -/
theorem getD_flatMap_wordBytes : ∀ (payload : List Word) (j : Nat),
    (payload.flatMap wordBytes).getD j 0 = payloadByte payload j
  | [], j => by simp [payloadByte]
  | w :: _, 0 | w :: _, 1 | w :: _, 2 | w :: _, 3 => by
    simp [payloadByte, wordBytes, wordByte_eq_ofNat]
  | w :: ws, j + 4 => by
    have hdiv : (j + 4) / 4 = j / 4 + 1 := by omega
    have hmod : (j + 4) % 4 = j % 4 := by omega
    have ih := getD_flatMap_wordBytes ws j
    simpa [payloadByte, wordBytes, hdiv, hmod] using ih

/-- Byte `j` of an unpacked key is byte `j` of its payload (R73). -/
theorem unpackKey_getD (payload : List Word) {len j : Nat} (hj : j < len) :
    (unpackKey len payload).getD j 0 = payloadByte payload j := by
  rw [← getD_flatMap_wordBytes, unpackKey, List.getD_eq_getElem?_getD, List.getElem?_take_of_lt hj,
    List.getD_eq_getElem?_getD]

/-- Payloads that agree on the bytes of the key carry the same key: pad bytes are ignored (R73). -/
theorem unpackKey_congr {len : Nat} {payload payload' : List Word}
    (hlen : payload.length = ceil4 len) (hlen' : payload'.length = ceil4 len)
    (h : ∀ j < len, payloadByte payload' j = payloadByte payload j) :
    unpackKey len payload' = unpackKey len payload := by
  have hkey := length_unpackKey len payload hlen.ge
  have hkey' := length_unpackKey len payload' hlen'.ge
  refine List.ext_getElem (hkey'.trans hkey.symm) fun j hj' hj => ?_
  rw [hkey] at hj
  rw [← List.getD_eq_getElem _ 0, ← List.getD_eq_getElem _ 0, unpackKey_getD _ hj,
    unpackKey_getD _ hj, h j hj]

/-- The four key headers lead to the key (R72). -/
theorem decode_keyHeader {h : Word}
    (hh : h ∈ ([0x02000000, 0x03000000, 0x04000000, 0x05000000] : List Word)) :
    ∃ mk, ∀ ws, decode (h :: ws) = decodeKey mk ws := by
  simp only [List.mem_cons, List.not_mem_nil, or_false] at hh
  obtain rfl | rfl | rfl | rfl := hh
  · exact ⟨.add, decode_add_header⟩
  · exact ⟨.query, decode_query_header⟩
  · exact ⟨.hashFnv, decode_hashFnv_header⟩
  · exact ⟨.hashMur, decode_hashMur_header⟩

/-! ### Illegal headers (R76) -/

/-- `OPC` as a number (R71). -/
theorem opcOf_toNat (h : Word) : (opcOf h).toNat = h.toNat / 2 ^ 24 := by
  have hlt := h.isLt
  simp only [opcOf, BitVec.extractLsb'_toNat, Nat.shiftRight_eq_div_pow]
  omega

/-- A header whose `ARG24` must be 0 is illegal exactly when it is not (R76 b). -/
theorem plainHeader_illegal_iff (h : Word) {x : Header} (hx : ∀ why, x ≠ .illegal why) :
    (∃ why, plainHeader h x = .illegal why) ↔ h.toNat % 2 ^ 24 ≠ 0 := by
  have harg : argOf h = 0 ↔ h.toNat % 2 ^ 24 = 0 := by
    rw [← BitVec.toNat_inj]
    simp [argOf]
  rw [plainHeader, Ne, ← harg]
  split_ifs with h0
  · exact iff_of_false (fun ⟨why, hwhy⟩ => hx why hwhy) (not_not.2 h0)
  · exact iff_of_true ⟨_, rfl⟩ h0

/-- The register numbers above 6 name no register (R31). -/
theorem ctrlRegOf_eq_none_iff (c : Byte) : ctrlRegOf c = none ↔ 6 < c.toNat := by
  unfold ctrlRegOf
  split
  case h_8 => simp only [imp_false, true_iff] at *; omega
  all_goals simp_all

/-- When a header of `RDREG` is illegal (R76 c). -/
theorem rdregHeader_illegal_iff (h : Word) : (∃ why, rdregHeader h = .illegal why) ↔
    h.toNat % 2 ^ 24 / 2 ^ 8 ≠ 0 ∨ 6 < h.toNat % 2 ^ 24 % 2 ^ 8 := by
  have hhigh : h.extractLsb' 8 16 = 0 ↔ h.toNat % 2 ^ 24 / 2 ^ 8 = 0 := by
    rw [← BitVec.toNat_inj, BitVec.extractLsb'_toNat, Nat.shiftRight_eq_div_pow]
    simp only [BitVec.ofNat_eq_ofNat, BitVec.toNat_ofNat]
    omega
  have hlow : ctrlRegOf (h.extractLsb' 0 8) = none ↔ 6 < h.toNat % 2 ^ 24 % 2 ^ 8 := by
    rw [ctrlRegOf_eq_none_iff]
    simp
  rw [rdregHeader, ← hlow, Ne, ← hhigh]
  split_ifs with h0
  · cases ctrlRegOf (h.extractLsb' 0 8) <;> simp [h0]
  · exact iff_of_true ⟨_, rfl⟩ (.inl h0)

/-- The decoder finds illegal exactly the headers of the clauses of R76. -/
theorem readHeader_illegal_iff (h : Word) :
    (∃ why, readHeader h = .illegal why) ↔ IllegalWord h := by
  unfold readHeader IllegalWord
  rw [opcOf_toNat]
  generalize h.toNat / 2 ^ 24 = opc
  split
  case h_6 => simp [rdregHeader_illegal_iff]
  case h_8 => simp only [Header.illegal.injEq, exists_eq', imp_false, true_iff] at *; omega
  all_goals simp [plainHeader_illegal_iff]

/-- A header is legal exactly when it is that of a command that can be sent (R72, R76). -/
theorem not_illegalWord_iff (h : Word) :
    ¬ IllegalWord h ↔ ∃ i, WellFormed i ∧ (encode i).head? = some h := by
  rw [← readHeader_illegal_iff]
  constructor
  · intro hlegal
    obtain ⟨-, rfl⟩ | ⟨-, rfl⟩ | ⟨-, rfl⟩ | ⟨-, rfl⟩ | ⟨-, rfl⟩ | ⟨r, -, rfl⟩ | ⟨-, rfl⟩ :=
      (readHeader_cases h).resolve_left hlegal
    · exact ⟨.initMk 0 0, trivial, rfl⟩
    · exact ⟨.add [], by decide, rfl⟩
    · exact ⟨.query [], by decide, rfl⟩
    · exact ⟨.hashFnv [], by decide, rfl⟩
    · exact ⟨.hashMur [], by decide, rfl⟩
    · exact ⟨.rdreg r, trivial, rfl⟩
    · exact ⟨.rdbit 0 0, trivial, rfl⟩
  · rintro ⟨i, -, hi⟩
    cases i <;> cases hi <;> simp

/-- A step at an illegal header consumes it and answers (R76). -/
theorem step_of_illegalWord {s : State} {h : Word} {rest : List Word} (hcmd : s.cmd = h :: rest)
    (hill : IllegalWord h) : step s = .next (illegalHeader h (consume rest s)) := by
  obtain ⟨why, hr⟩ := (readHeader_illegal_iff h).2 hill
  simp only [step, hcmd, decode, hr]

/-! ### The sizes of INIT_NP (R79, R160) -/

/-- `m_raw` is not negative for at least one key (R160). -/
theorem floor_mRaw_nonneg {n : Int} {p : Real} (hn : 1 ≤ n) :
    0 ≤ ⌊(|Real.log p| * (n : Real)) / Real.sqrt (Real.log 2)⌋ := by
  have hn0 : (0 : Real) ≤ n := Int.cast_nonneg (by omega)
  exact Int.floor_nonneg.2 (by positivity)

/-- `k_raw` is not negative for a probability (R160). -/
theorem floor_kRaw_nonneg {p : Real} (hp : 0 < p) (hp1 : p < 1) : 0 ≤ ⌊Real.logb 2 (1 / p)⌋ :=
  Int.floor_nonneg.2 (Real.logb_nonneg one_lt_two (one_le_one_div hp hp1.le))

/-- Legal inputs have sizes (R160). -/
theorem sizeNp_exists {n : Int} {p : Real} (h : SizeDomain n p) : ∃ m k, SizeNp n p m k := by
  obtain ⟨hn, hp, hp1⟩ := h
  have hm := floor_mRaw_nonneg (p := p) hn
  have hk := floor_kRaw_nonneg hp hp1
  exact ⟨_, _, ⟨hn, hp, hp1⟩, Int.toNat_of_nonneg (by omega), Int.toNat_of_nonneg (by omega)⟩

/-- Inputs have one pair of sizes (R160). -/
theorem sizeNp_unique {n : Int} {p : Real} {m k m' k' : Nat} (h : SizeNp n p m k)
    (h' : SizeNp n p m' k') : m = m' ∧ k = k' := by
  obtain ⟨-, hm, hk⟩ := h
  obtain ⟨-, hm', hk'⟩ := h'
  exact ⟨Int.ofNat_inj.1 (hm.trans hm'.symm), Int.ofNat_inj.1 (hk.trans hk'.symm)⟩

/-- Both sizes are at least 1 (R160). -/
theorem sizeNp_pos {n : Int} {p : Real} {m k : Nat} (h : SizeNp n p m k) : 1 ≤ m ∧ 1 ≤ k := by
  obtain ⟨⟨hn, hp, hp1⟩, hm, hk⟩ := h
  have hm0 := floor_mRaw_nonneg (p := p) hn
  have hk0 := floor_kRaw_nonneg hp hp1
  rw [SizeM] at hm
  rw [SizeK] at hk
  omega

/-- What the host makes of the sizes `m` and `k` (R79). -/
def hostResult (m k : Nat) : HostResult :=
  if m < 2 ^ 32 ∧ k < 2 ^ 32 then .command (.initMk (BitVec.ofNat 32 m) (BitVec.ofNat 32 k))
  else .capacityExceeded

/-- Legal inputs expand to what the host makes of their sizes, and to nothing else (R79). -/
theorem initNpExpands_iff_of_sizes {n : Int} {p : Real} {m k : Nat} (h : SizeNp n p m k)
    (r : HostResult) : InitNpExpands n p r ↔ r = hostResult m k := by
  have hsizes : ∀ {m' k'}, SizeNp n p m' k' → m = m' ∧ k = k' := sizeNp_unique h
  constructor
  · intro hr
    cases r with
    | invalidParameter => exact absurd h.1 hr
    | capacityExceeded =>
      obtain ⟨m', k', h', hbig⟩ := hr
      obtain ⟨rfl, rfl⟩ := hsizes h'
      exact (if_neg (by omega)).symm
    | command i =>
      obtain ⟨m', k', h', hm, hk, rfl⟩ := hr
      obtain ⟨rfl, rfl⟩ := hsizes h'
      exact (if_pos ⟨hm, hk⟩).symm
  · rintro rfl
    unfold hostResult
    split_ifs with hfits
    · exact ⟨m, k, h, hfits.1, hfits.2, rfl⟩
    · exact ⟨m, k, h, by omega⟩

/-- Other inputs expand to `InvalidParameter` and to nothing else (R79). -/
theorem initNpExpands_iff_of_not_domain {n : Int} {p : Real} (h : ¬ SizeDomain n p)
    (r : HostResult) : InitNpExpands n p r ↔ r = .invalidParameter := by
  cases r with
  | invalidParameter => exact iff_of_true h rfl
  | capacityExceeded =>
    refine iff_of_false ?_ (by simp)
    rintro ⟨m, k, hs, -⟩
    exact h hs.1
  | command i =>
    refine iff_of_false ?_ (by simp)
    rintro ⟨m, k, hs, -⟩
    exact h hs.1

/-- The expansion has one result (R79). -/
theorem initNpExpands_existsUnique (n : Int) (p : Real) : ∃! r, InitNpExpands n p r := by
  by_cases h : SizeDomain n p
  · obtain ⟨m, k, hs⟩ := sizeNp_exists h
    simp [initNpExpands_iff_of_sizes hs]
  · simp [initNpExpands_iff_of_not_domain h]

/-- The host reports `CapacityExceeded` exactly for legal inputs with a size that does not fit (R79). -/
theorem initNpExpands_capacityExceeded_iff (n : Int) (p : Real) :
    InitNpExpands n p .capacityExceeded ↔
      SizeDomain n p ∧ ∀ m k : Nat, SizeNp n p m k → ¬ (m < 2 ^ 32 ∧ k < 2 ^ 32) := by
  constructor
  · rintro ⟨m, k, hs, hbig⟩
    refine ⟨hs.1, fun m' k' hs' => ?_⟩
    obtain ⟨rfl, rfl⟩ := sizeNp_unique hs hs'
    omega
  · rintro ⟨hdom, hbig⟩
    obtain ⟨m, k, hs⟩ := sizeNp_exists hdom
    exact (initNpExpands_iff_of_sizes hs _).2 (if_neg (hbig m k hs)).symm

/-- The host sends a command exactly where it is `INIT_MK` with the sizes, which fit words (R79). -/
theorem initNpExpands_command_iff (n : Int) (p : Real) (i : Instr) :
    InitNpExpands n p (.command i) ↔
      ∃ m k : Word, i = .initMk m k ∧ SizeNp n p m.toNat k.toNat := by
  constructor
  · rintro ⟨m, k, hs, hm, hk, rfl⟩
    refine ⟨_, _, rfl, ?_⟩
    rwa [BitVec.toNat_ofNat, BitVec.toNat_ofNat, Nat.mod_eq_of_lt hm, Nat.mod_eq_of_lt hk]
  · rintro ⟨m, k, rfl, hs⟩
    exact ⟨m.toNat, k.toNat, hs, m.isLt, k.isLt, by simp⟩

/-- With neither size 0, `INIT_MK` reports no INVALID_PARAMETER (R154). -/
theorem checkInitMk_of_pos {s : State} {m k : Word} {e : Status} (hm : 1 ≤ m.toNat)
    (hk : 1 ≤ k.toNat) (h : checkInitMk s m k = some e) :
    e = .invalidState ∨ e = .capacityExceeded := by
  have hm0 : m ≠ 0 := by rintro rfl; simp at hm
  have hk0 : k ≠ 0 := by rintro rfl; simp at hk
  unfold checkInitMk at h
  rw [if_neg (not_or.2 ⟨hm0, hk0⟩)] at h
  split_ifs at h with hi hcap
  · cases h; exact .inl rfl
  · cases h; exact .inr rfl

/-! ### The channels (R70) -/

/-- A response word moves as soon as the host accepts it, while words of a command are missing (R70). -/
theorem step_accept {s : State} {w : Word} {rsp : List Word} {es : List HostEvent}
    (hd : decode s.cmd = .incomplete) (hrsp : s.rsp = w :: rsp) (hhost : s.host = .accept :: es) :
    step s = .next { s with rsp := rsp, received := s.received ++ [w], host := es } := by
  rw [step_of_incomplete hd]
  simp [hostStep, hhost, firstEvent, canHappen, hrsp, hostEvent, transferResponse]

/-! ### The obligations -/

/-- Settles O1: the decoder takes the header, then the operands that the encoder wrote. -/
theorem decodeOfEncode : Obligations.DecodeOfEncode := decode_encode_append

/-- Settles O2: the words used up are the header and the operand words. -/
theorem decodingConsumesExactlyOneCommand : Obligations.DecodingConsumesExactlyOneCommand := by
  intro ws i rest h
  obtain ⟨hwf, hdr, operands, hws, hhdr, hlen⟩ := decode_eq_command h
  refine ⟨hwf, hdr :: operands, hws, ?_, hhdr.symm⟩
  rw [List.length_cons, hlen, encode_length]

/-- Settles O3: the decoder waits for the operand words that the header and `LEN` announce. -/
theorem fewerWordsAreIncomplete : Obligations.FewerWordsAreIncomplete := decode_take_encode

/-- Settles O4: the key is the first `LEN` bytes of the payload, whatever the pad bytes are. -/
theorem keyIsRecoveredFromPayload : Obligations.KeyIsRecoveredFromPayload := by
  intro len payload rest hlen
  have hkey : ∀ mk, decodeKey mk (len :: (payload ++ rest)) =
      .command (mk (unpackKey len.toNat payload)) rest :=
    fun mk => decodeKey_complete mk len payload rest hlen
  refine ⟨⟨unpackKey len.toNat payload, length_unpackKey _ _ hlen.ge, fun j => unpackKey_getD payload,
    (decode_add_header _).trans (hkey .add), (decode_query_header _).trans (hkey .query),
    (decode_hashFnv_header _).trans (hkey .hashFnv),
    (decode_hashMur_header _).trans (hkey .hashMur)⟩, fun payload' hlen' hagree h hh => ?_⟩
  obtain ⟨mk, hdecode⟩ := decode_keyHeader hh
  rw [hdecode, hdecode, hkey, decodeKey_complete mk len payload' rest (hlen'.trans hlen),
    unpackKey_congr hlen (hlen'.trans hlen) hagree]

/-- Settles O6: the decoder's illegal headers are those of R76, and the step only answers them. -/
theorem illegalHeadersAreAnsweredAndSkipped : Obligations.IllegalHeadersAreAnsweredAndSkipped := by
  refine ⟨not_illegalWord_iff, fun s h rest hcmd hill => ?_, .inl (.inl (by decide)),
    .inl (.inr (by decide))⟩
  rw [step_of_illegalWord hcmd hill]
  simp [illegalHeader, raise, respond, consume, encodeResponse_eq, opcOf_toNat, statusCode]

/-- Settles O42: every command ends in one response, and an error carries VALUE 0. -/
theorem everyCommandAnswersTwoWords : Obligations.EveryCommandAnswersTwoWords := by
  intro i s t h
  obtain ⟨st, value, u, rfl, ⟨-, -, -, hrsp, -, -⟩, herr⟩ := exec_responds i s t h
  refine ⟨(statusCode st).toNat, value, statusCode_le st, fun hcode => ?_, ?_⟩
  · exact (herr fun hok => hcode ((statusCode_eq_zero st).2 hok)).2
  · rw [respond_rsp, hrsp, encodeResponse_eq]

/-- Settles O59: the sizes are a function of the legal inputs and are at least 1, and that is all `INIT_MK`
asks of its parameters. -/
theorem initNpExpandsToOneCommand : Obligations.InitNpExpandsToOneCommand := by
  refine ⟨initNpExpands_existsUnique, fun _ _ => Iff.rfl, initNpExpands_capacityExceeded_iff,
    initNpExpands_command_iff, fun n p i s h => ?_⟩
  obtain ⟨m, k, rfl, hs⟩ := (initNpExpands_command_iff n p i).1 h
  obtain ⟨hm, hk⟩ := sizeNp_pos hs
  cases hc : checkInitMk s m k with
  | none => exact ⟨_, _, exec_initMk_of_check hc, rfl, by decide⟩
  | some e =>
    refine ⟨_, _, exec_initMk_of_error hc, rfl, ?_⟩
    obtain rfl | rfl := checkInitMk_of_pos hm hk hc <;> decide

/-- Settles O7: the decoder evaluated on each stream. -/
theorem writtenOutWordsDecode : Obligations.WrittenOutWordsDecode := by
  unfold Obligations.WrittenOutWordsDecode
  decide

/-- Settles O8: the assembler evaluated on each line. -/
theorem assemblerGivesPrintedWords : Obligations.AssemblerGivesPrintedWords := by
  unfold Obligations.AssemblerGivesPrintedWords
  decide

/-- Settles O11: the host's first event can happen, so it does. -/
theorem channelsMoveOneWord : Obligations.ChannelsMoveOneWord :=
  ⟨fun _ _ _ => step_word, fun _ _ _ _ => step_accept⟩

end Sys2Proof.Machine
end

section
/-! PROOFS. The family of spec/40_hash_fnv.md: one key byte as arithmetic on naturals, reduction modulo 2^32
across the whole key, and the answer of `HASH_FNV`. -/

namespace Sys2Proof.Machine

/-! ### One byte of the FNV engine (R101, R102) -/

/-- A byte keeps its value when it is widened, a high bit included (R10). -/
@[simp] theorem toNat_zext32 (b : Byte) : (zext32 b).toNat = b.toNat :=
  BitVec.toNat_setWidth_of_le (by decide)

/-- The byte goes in by exclusive-or, then comes the multiplication by the prime (R101). -/
theorem toNat_fnvAbsorb (acc : Word) (b : Byte) :
    (fnvAbsorb acc b).toNat = (acc.toNat ^^^ b.toNat) * 16777619 % 2 ^ 32 := by
  obtain ⟨hprimitives, -⟩ := arithmeticPrimitives
  obtain ⟨hxor, -, -⟩ := hprimitives acc (zext32 b)
  obtain ⟨-, hmul, -⟩ := hprimitives (xor32 acc (zext32 b)) fnvPrime
  rw [fnvAbsorb, hmul, hxor, toNat_zext32]
  rfl

@[simp] theorem fnv32_nil : fnv32 [] = fnvOffsetBasis := rfl

/-- The engine holds the hash of the bytes it has taken (R102). -/
theorem fnv32_append_singleton (key : Key) (b : Byte) :
    fnv32 (key ++ [b]) = fnvAbsorb (fnv32 key) b := List.foldl_append

/-- One byte of the same loop on naturals, with no reduction (R101). -/
def fnvAbsorbNat (acc : Nat) (b : Byte) : Nat := (acc ^^^ b.toNat) * 16777619

/-- Reducing the accumulator before a byte or after it gives the same word: both exclusive-or and the
multiplication commute with reduction modulo 2^32 (R101). -/
theorem fnvAbsorb_ofNat (acc : Nat) (b : Byte) :
    fnvAbsorb (BitVec.ofNat 32 acc) b = BitVec.ofNat 32 (fnvAbsorbNat acc b) := by
  have hb : b.toNat % 2 ^ 32 = b.toNat := Nat.mod_eq_of_lt (by have := b.isLt; omega)
  have hxor : acc % 2 ^ 32 ^^^ b.toNat = (acc ^^^ b.toNat) % 2 ^ 32 := by
    rw [Nat.xor_mod_two_pow, hb]
  apply BitVec.eq_of_toNat_eq
  rw [toNat_fnvAbsorb, BitVec.toNat_ofNat, BitVec.toNat_ofNat, hxor, Nat.mod_mul_mod, fnvAbsorbNat]

/-- The hash of a key is the reduction of the unbounded loop's result (R101). -/
theorem fnv32_eq_ofNat (key : Key) :
    fnv32 key = BitVec.ofNat 32 (key.foldl fnvAbsorbNat 2166136261) :=
  List.foldl_hom (BitVec.ofNat 32) fnvAbsorb_ofNat

/-! ### The obligations -/

/-- Settles O19: reduction modulo 2^32 carries the unbounded loop to the engine's, byte by byte. -/
theorem fnvMayReduceAtTheEnd : Obligations.FnvMayReduceAtTheEnd := by
  intro key
  rw [fnv32_eq_ofNat, BitVec.toNat_ofNat]
  rfl

/-- Settles O18: the last byte of a key is the engine's last step. -/
theorem fnvTakesOneByteAtATime : Obligations.FnvTakesOneByteAtATime := by
  refine ⟨fnv32_nil, fun key b => ?_⟩
  rw [fnv32_append_singleton, toNat_fnvAbsorb]

/-- Settles O20: the engine evaluated on each key. -/
theorem fnvKnownValues : Obligations.FnvKnownValues := by
  unfold Obligations.FnvKnownValues
  decide

/-- Settles O21: `HASH_FNV` only answers, and its response is the two words of R77. -/
theorem hashFnvResponds : Obligations.HashFnvResponds := by
  intro key s
  rw [exec, execHashFnv, respond_eq]
  rfl

end Sys2Proof.Machine
end

section
/-! PROOFS. The family of spec/41_hash_murmur.md: what the working registers of the streaming form hold after
any number of bytes, the tail path of a key without tail, and the answer of `HASH_MUR`. -/

namespace Sys2Proof.Machine

/-! ### A key with one byte more (R122, R124) -/

theorem length_append_byte (key : Key) (b : Byte) : (key ++ [b]).length = key.length + 1 :=
  List.length_append

/-- One byte more leaves the bytes before it. -/
theorem keyByte_append_of_lt {key : Key} (b : Byte) {j : Nat} (hj : j < key.length) :
    keyByte (key ++ [b]) j = keyByte key j := List.getD_append _ _ _ _ hj

/-- The byte more is the last one. -/
@[simp] theorem keyByte_append_length (key : Key) (b : Byte) :
    keyByte (key ++ [b]) key.length = b := by simp [keyByte]

/-- One byte more leaves the blocks that were full (R122). -/
theorem blockword_append_of_lt {key : Key} (b : Byte) {q : Nat} (hq : q < key.length / 4) :
    blockword (key ++ [b]) q = blockword key q := by
  simp (disch := omega) only [blockword, keyByte_append_of_lt]

/-- A key without tail has the tail word 0 (R124). -/
theorem tailword_of_no_tail {key : Key} (h : key.length % 4 = 0) : tailword key = 0 := by
  rw [tailword, h]
  rfl

/-- A byte that fills no block goes into the next lane of the tail word (R124). -/
theorem tailword_append {key : Key} (b : Byte) (h : key.length % 4 ≠ 3) :
    tailword (key ++ [b]) = tailword key + lane b (key.length % 4) := by
  have hmod : (key ++ [b]).length % 4 = key.length % 4 + 1 := by
    rw [length_append_byte]; omega
  have hdiv : (key ++ [b]).length / 4 = key.length / 4 := by
    rw [length_append_byte]; omega
  rw [tailword, hmod, hdiv, List.range_succ, List.foldl_append, List.foldl_cons, List.foldl_nil,
    Nat.div_add_mod, keyByte_append_length, tailword]
  congr 1
  refine List.foldl_ext _ _ _ fun w j hj => ?_
  have hj' := List.mem_range.1 hj
  rw [keyByte_append_of_lt b (by omega)]

/-- The byte that fills a block makes the tail word the block's word (R122, R124). -/
theorem blockword_append_of_three {key : Key} (b : Byte) (h : key.length % 4 = 3) :
    blockword (key ++ [b]) (key.length / 4) = tailword key + lane b 3 := by
  have hlast : 4 * (key.length / 4) + 3 = key.length := by omega
  simp (disch := omega) only [blockword, keyByte_append_of_lt, hlast, keyByte_append_length]
  simp [tailword, h, List.range_succ]

/-- The full blocks of a key are mixed alike when one byte more follows them (R122). -/
theorem foldl_blockmix_append (key : Key) (b : Byte) :
    (List.range (key.length / 4)).foldl (fun h q => blockmix h (blockword (key ++ [b]) q)) murSeed =
      blocksHash key :=
  List.foldl_ext _ _ _ fun h _ hq =>
    congrArg (blockmix h) (blockword_append_of_lt b (List.mem_range.1 hq))

/-- A byte that fills no block leaves the running hash (R121). -/
theorem blocksHash_append {key : Key} (b : Byte) (h : key.length % 4 ≠ 3) :
    blocksHash (key ++ [b]) = blocksHash key := by
  have hdiv : (key ++ [b]).length / 4 = key.length / 4 := by
    rw [length_append_byte]; omega
  rw [blocksHash, hdiv, foldl_blockmix_append]

/-- The byte that fills a block mixes that block in (R121). -/
theorem blocksHash_append_of_three {key : Key} (b : Byte) (h : key.length % 4 = 3) :
    blocksHash (key ++ [b]) = blockmix (blocksHash key) (tailword key + lane b 3) := by
  have hdiv : (key ++ [b]).length / 4 = key.length / 4 + 1 := by
    rw [length_append_byte]; omega
  rw [blocksHash, hdiv, List.range_succ, List.foldl_append, foldl_blockmix_append, List.foldl_cons,
    List.foldl_nil, blockword_append_of_three b h]

/-! ### The working registers (R27, R127) -/

/-- What the working registers hold once the bytes of `key` are in: the hash of the full blocks, the tail
word and the length modulo 2^32. -/
def murRegsOf (key : Key) : MurRegs :=
  { h := blocksHash key, kw := tailword key, len := BitVec.ofNat 32 key.length }

/-- The lane of the next byte, also past 2^32 bytes: 4 divides 2^32 (R127). -/
theorem murRegsOf_lane (key : Key) : (murRegsOf key).len.toNat % 4 = key.length % 4 := by
  rw [murRegsOf, BitVec.toNat_ofNat, Nat.mod_mod_of_dvd _ (by decide)]

/-- One byte more keeps what the registers hold (R127). -/
theorem murAbsorb_murRegsOf (key : Key) (b : Byte) :
    murAbsorb (murRegsOf key) b = murRegsOf (key ++ [b]) := by
  have hlen : BitVec.ofNat 32 key.length + 1 = BitVec.ofNat 32 (key ++ [b]).length := by
    rw [length_append_byte, BitVec.ofNat_add]
    rfl
  rw [murAbsorb, murRegsOf_lane]
  by_cases h : key.length % 4 = 3
  · have hnone : (key ++ [b]).length % 4 = 0 := by
      rw [length_append_byte]; omega
    simp only [h, if_true, murRegsOf, hlen, blocksHash_append_of_three b h, tailword_of_no_tail hnone]
  · simp only [h, if_false, murRegsOf, hlen, blocksHash_append b h, tailword_append b h]

/-- The registers after any number of bytes (R127). -/
theorem foldl_murAbsorb (key : Key) : key.foldl murAbsorb murStart = murRegsOf key := by
  induction key using List.reverseRecOn with
  | nil => rfl
  | append_singleton key b ih =>
    rw [List.foldl_append, ih, List.foldl_cons, List.foldl_nil, murAbsorb_murRegsOf]

/-! ### The obligations -/

/-- Settles O22: the registers hold the full blocks' hash, the tail word and the length, which are what
the function finishes with. -/
theorem murmurStreamEqualsFunction : Obligations.MurmurStreamEqualsFunction := by
  intro key
  rw [murmurStream, foldl_murAbsorb, murFinish, murRegsOf_lane]
  rfl

/-- Settles O23: the scrambled tail word of a key without tail is 0, which exclusive-or ignores. -/
theorem murmurTailPathMayAlwaysRun : Obligations.MurmurTailPathMayAlwaysRun := by
  intro h key
  rw [tailmix]
  split_ifs with hnone
  · have hzero : scramble 0 = 0 := by decide
    rw [tailword_of_no_tail hnone, hzero]
    exact BitVec.xor_zero.symm
  · rfl

/-- Settles O24: the function evaluated on each key. -/
theorem murmurKnownValues : Obligations.MurmurKnownValues := by
  unfold Obligations.MurmurKnownValues
  decide

/-- Settles O25: `HASH_MUR` only answers, and its response is the two words of R77. -/
theorem hashMurResponds : Obligations.HashMurResponds := by
  intro key s
  rw [exec, execHashMur, respond_eq]
  rfl

end Sys2Proof.Machine
end

section
/-! PROOFS. The family of spec/42_bloom.md: the round index, what `INIT_MK` and `QUERY` answer, why a key once
added is found until a reset, and the host's sizing function. -/

namespace Sys2Proof.Machine

/-! ### The round index (R150, R151, R152) -/

/-- Every branch of the index ends in the reduction modulo `m` (R152). -/
theorem index_lt (f g : Word) (i : Nat) {m : Nat} (hm : 1 ≤ m) : index f g i m < m := by
  unfold index
  split_ifs <;> exact Nat.mod_lt _ hm

/-- The largest sum is at `f = g = i = 2^32 - 1` (R151). -/
theorem indexSum_le (f g : Word) {i : Nat} (hi : i < 2 ^ 32) :
    f.toNat + g.toNat * i ≤ 2 ^ 64 - 2 ^ 32 :=
  calc f.toNat + g.toNat * i ≤ (2 ^ 32 - 1) + (2 ^ 32 - 1) * (2 ^ 32 - 1) :=
        Nat.add_le_add (Nat.le_pred_of_lt f.isLt)
          (Nat.mul_le_mul (Nat.le_pred_of_lt g.isLt) (Nat.le_pred_of_lt hi))
    _ = 2 ^ 64 - 2 ^ 32 := by norm_num

/-- A 64-bit datapath computes the sum of the third branch without wrapping (R151). -/
theorem indexSum_toNat (f g : Word) {i : Nat} (hi : i < 2 ^ 32) :
    (f.setWidth 64 + g.setWidth 64 * BitVec.ofNat 64 i : DWord).toNat = f.toNat + g.toNat * i := by
  have hsum := indexSum_le f g hi
  have hprod : g.toNat * i < 2 ^ 64 := by omega
  have hf : (f.setWidth 64).toNat = f.toNat := BitVec.toNat_setWidth_of_le (by decide)
  have hg : (g.setWidth 64).toNat = g.toNat := BitVec.toNat_setWidth_of_le (by decide)
  rw [BitVec.toNat_add, BitVec.toNat_mul, hf, hg, BitVec.toNat_ofNat,
    Nat.mod_eq_of_lt (by omega : i < 2 ^ 64), Nat.mod_eq_of_lt hprod, Nat.mod_eq_of_lt (by omega)]

/-! ### Writes of 1 (R158) -/

/-- On a canonical memory the order of two writes of 1 is lost: the cells listed are the same. -/
theorem Memory.write_true_comm {mem : Memory} (hwf : Memory.wf mem) (c d : Cell) :
    Memory.write (Memory.write mem c true) d true = Memory.write (Memory.write mem d true) c true := by
  refine Memory.eq_of_read_eq (write_wf _ _ (write_wf _ _ hwf)) (write_wf _ _ (write_wf _ _ hwf))
    fun e => ?_
  simp only [Memory.read_write]
  split_ifs <;> rfl

/-! ### INIT_MK (R154, R205) -/

/-- The words in which `INIT_MK` reports a condition; nothing else changes (R206). -/
theorem exec_initMk_error_words {s : State} {m k : Word} {e : Status} (h : checkInitMk s m k = some e) :
    exec (.initMk m k) s = .next { s with
      rsp := s.rsp ++ [BitVec.ofNat 32 (0x01000000 + (statusCode e).toNat), 0] } := by
  rw [exec_initMk_of_error h, raise, respond_eq]
  rfl

/-! ### QUERY and the keys a filter remembers (R156, R157, R159) -/

/-- `QUERY` answers whether the filter remembers the key (R156, R157). -/
theorem exec_query_remembers {s : State} (key : Key) (hi : s.init = true) (hm : 1 ≤ s.m.toNat) :
    ∃ b, exec (.query key) s = .next (respond 0x03 .ok (bitValue b) s) ∧
      (b = true ↔ s.remembers key) := by
  obtain ⟨b, hb, hall⟩ :=
    testRounds_spec (fnv32 key) (murmur32 key) s hm s.k.toNat 1 le_rfl (by omega)
  refine ⟨b, exec_query_of_rounds hi hb, hall.trans ?_⟩
  exact ⟨fun h i hi hik => h i hi (by omega), fun h j hj hjk => h j hj (by omega)⟩

/-- A filter that grew remembers what it remembered: its rounds address the same cells (R26, R159). -/
theorem State.grewTo.remembers {s t : State} (h : s.grewTo t) {key : Key} (hkey : s.remembers key) :
    t.remembers key := by
  obtain ⟨-, hm, hk, -, hbits⟩ := h
  intro i hi hik
  rw [hm]
  exact hbits _ _ (hkey i hi (hk ▸ hik))

/-- `ADD` answers OK on an Initialized filter only (R155, R202). -/
theorem init_of_exec_add_ok {s t : State} {key : Key} (h : exec (.add key) s = .next t)
    (hok : t.rsp = s.rsp ++ [0x02000000, 0]) : s.init = true := by
  obtain ⟨-, rfl⟩ | ⟨hi, -⟩ := execAdd_cases key s t h
  · exact absurd (List.append_cancel_left hok) (by decide)
  · exact hi

/-! ### The sizing function (R160, R162) -/

/-- Decreasing `p` never decreases `|ln p|` (R162). -/
theorem abs_log_anti {p q : Real} (hq : 0 < q) (hqp : q ≤ p) (hp : p ≤ 1) :
    |Real.log p| ≤ |Real.log q| := by
  have hlog : Real.log q ≤ Real.log p := Real.log_le_log hq hqp
  exact abs_le_abs_of_nonpos (Real.log_nonpos (hq.le.trans hqp) hp) hlog

/-- `m` does not decrease as `p` decreases (R162). -/
theorem SizeM.le_of_le {n : Int} {p q : Real} {m m' : Nat} (hn : 1 ≤ n) (hq : 0 < q) (hqp : q ≤ p)
    (hp : p ≤ 1) (h : SizeM n p m) (h' : SizeM n q m') : m ≤ m' := by
  have hn0 : (0 : Real) ≤ n := Int.cast_nonneg (by omega)
  have hraw : |Real.log p| * n ≤ |Real.log q| * n :=
    mul_le_mul_of_nonneg_right (abs_log_anti hq hqp hp) hn0
  have hfloor := Int.floor_le_floor (div_le_div_of_nonneg_right hraw (Real.sqrt_nonneg (Real.log 2)))
  rw [SizeM] at h h'
  omega

/-- `k` does not decrease as `p` decreases (R162). -/
theorem SizeK.le_of_le {p q : Real} {k k' : Nat} (hq : 0 < q) (hqp : q ≤ p) (h : SizeK p k)
    (h' : SizeK q k') : k ≤ k' := by
  have hraw : Real.logb 2 (1 / p) ≤ Real.logb 2 (1 / q) :=
    Real.logb_le_logb_of_le one_lt_two (one_div_pos.2 (hq.trans_le hqp))
      (one_div_le_one_div_of_le hq hqp)
  have hfloor := Int.floor_le_floor hraw
  rw [SizeK] at h h'
  omega

/-- `k_raw` of `(1/2)^j` is the integer `j` (R160). -/
theorem kRaw_half_pow (j : Nat) : Real.logb 2 (1 / (1 / 2 : Real) ^ j) = j := by
  rw [one_div_pow, one_div_one_div, Real.logb_pow, Real.logb_self_eq_one one_lt_two, mul_one]

/-! ### The obligations -/

/-- Settles O34: the filter remembers the key after `ADD`, and it grows in every run without a reset. -/
theorem noFalseNegatives : Obligations.NoFalseNegatives := by
  intro key s t u n hs hadd hok hn hrun
  have hi := init_of_exec_add_ok hadd hok
  obtain ⟨hit, hkey⟩ := remembers_of_exec_add hi hadd
  obtain ⟨hgrew, hm, -⟩ := filterOnlyGrows t u n (hs.after_exec _ hadd) hit hn hrun
  obtain ⟨b, hquery, hb⟩ := exec_query_remembers key hgrew.1 hm
  rw [hquery, hb.2 (hgrew.remembers hkey), respond_eq]
  rfl

/-- Settles O27: each branch by its definition, and the sum of the third fits 64 bits. -/
theorem indexBranchesAreExact : Obligations.IndexBranchesAreExact := by
  intro f g i m _ hi _
  refine ⟨fun h => if_pos h, ?_, indexSum_le f g hi, fun h => ?_⟩
  · rintro rfl
    rfl
  · rw [index, if_neg (by omega), if_neg (by omega), indexSum_toNat f g hi]

/-- Settles O32: the bit of every round is set exactly when the filter remembers the key. -/
theorem queryIsTheConjunctionOfRounds : Obligations.QueryIsTheConjunctionOfRounds := by
  intro key s hi hm
  obtain ⟨b, hquery, hb⟩ := exec_query_remembers key hi hm
  refine ⟨b, ?_, hb⟩
  rw [hquery, respond_eq, bitValue_eq]
  rfl

/-- Settles O33: the first round misses. -/
theorem emptyFilterAnswersNo : Obligations.EmptyFilterAnswersNo := by
  intro key s hi hm hk hempty
  rw [exec_query_of_empty key hi hm hk hempty, respond_eq]
  rfl

/-- Settles O37: a state's two writes are its memory's. -/
theorem writesOfOneCommute : Obligations.WritesOfOneCommute := by
  intro s v idx v' idx' hwf
  simp only [State.setBit, Memory.write_true_comm hwf (v, idx) (v', idx')]

/-- Settles O46: `INIT_MK` writes no parameter and nothing of the command channel or the host's side, and on
an Initialized filter it finds a condition to report. -/
theorem initMkFrame : Obligations.InitMkFrame := by
  intro m k s t h
  obtain ⟨e, -, rfl⟩ | ⟨hc, rfl⟩ := execInitMk_cases m k s t h
  · exact ⟨rfl, rfl, rfl, rfl, rfl, fun hi => ⟨hi, rfl, rfl, rfl, rfl⟩⟩
  · obtain ⟨hf, -⟩ := (checkInitMk_eq_none s m k).1 hc
    exact ⟨rfl, rfl, rfl, rfl, rfl, fun hi => by simp [hi] at hf⟩

/-- Settles O56: existence, uniqueness and positivity each by its own lemma. -/
theorem sizingIsTotalAndPositive : Obligations.SizingIsTotalAndPositive := by
  refine ⟨fun n p => sizeNp_exists, fun n p m k m' k' h h' => ?_, fun n p m k h => h.1⟩
  obtain ⟨hm, hk⟩ := sizeNp_unique h h'
  exact ⟨hm, hk, sizeNp_pos h⟩

/-- Settles O57: both real functions are antitone in `p`, and the floor is monotone. -/
theorem sizingIsMonotone : Obligations.SizingIsMonotone := by
  rintro n p q m k m' k' hqp ⟨⟨hn, -, hp1⟩, hm, hk⟩ ⟨⟨-, hq, -⟩, hm', hk'⟩
  exact ⟨hm.le_of_le hn hq hqp hp1.le hm', hk.le_of_le hq hqp hk'⟩

/-- Settles O58: the floor of an integer is the integer. -/
theorem sizingAddsOneToAnInteger : Obligations.SizingAddsOneToAnInteger := by
  rintro n j m k ⟨-, -, hk⟩
  rw [SizeK, kRaw_half_pow, Int.floor_natCast] at hk
  omega

/-- Settles O26: below `m`, and below 1 there is only 0. -/
theorem indexLiesInRange : Obligations.IndexLiesInRange := by
  intro f g i m _ hm
  have hlt := index_lt f g i hm
  exact ⟨hlt, by omega⟩

/-- Settles O29: each clause's hypotheses make its condition the first that holds. -/
theorem initMkErrors : Obligations.InitMkErrors := by
  refine ⟨fun m k s hi => ?_, fun m k s hi hz => ?_, fun m k s hi hm hk hcap => ?_⟩
  · exact exec_initMk_error_words (e := .invalidState) (if_pos hi)
  · refine exec_initMk_error_words (e := .invalidParameter) ?_
    rw [checkInitMk, if_neg (Bool.eq_false_iff.1 hi), if_pos hz]
  · refine exec_initMk_error_words (e := .capacityExceeded) ?_
    rw [checkInitMk, if_neg (Bool.eq_false_iff.1 hi), if_neg (not_or.2 ⟨hm, hk⟩), if_pos hcap]

end Sys2Proof.Machine
end

section
/-! PROOFS. The family of spec/43_system.md: `RDBIT` inside and outside the bit vectors. -/

namespace Sys2Proof.Machine

/-- `RDBIT` of a cell of an Initialized filter answers its bit (R191). -/
theorem exec_rdbit_of_hasCell {s : State} {v idx : Word} (hi : s.init = true)
    (hcell : s.hasCell v.toNat idx.toNat) :
    exec (.rdbit v idx) s = .next (respond 0x07 .ok (bitValue (s.bit v.toNat idx.toNat)) s) :=
  exec_rdbit_of_read ((checkRdbit_eq_none s v idx).2 ⟨hi, hcell⟩)
    ((memRead_eq_ok ..).2 ⟨hcell, rfl⟩)

/-- On an Initialized filter `RDBIT` reports a cell beyond the last vector or the last bit (R191, R205). -/
theorem checkRdbit_of_out_of_range {s : State} {v idx : Word} (hi : s.init = true)
    (hout : s.k.toNat ≤ v.toNat ∨ s.m.toNat ≤ idx.toNat) :
    checkRdbit s v idx = some .invalidParameter := by
  rw [checkRdbit, if_neg (by simp [hi]), if_pos hout]

/-! ### The obligations -/

/-- Settles O40: the two bounds say that the cell exists, so its bit is read. -/
theorem rdbitReadsTheCell : Obligations.RdbitReadsTheCell := by
  intro v idx s hi hv hidx
  rw [exec_rdbit_of_hasCell hi ⟨hv, hidx⟩, respond_eq, bitValue_eq]
  rfl

/-- Settles O41: the parameter condition is the first that holds. -/
theorem rdbitOutOfRange : Obligations.RdbitOutOfRange := by
  intro v idx s hi hout
  rw [exec_rdbit_of_error (checkRdbit_of_out_of_range hi hout), raise, respond_eq]
  rfl

end Sys2Proof.Machine
end

section
/-! PROOFS. The family of spec/60_exceptions.md: which condition a command reports, and what an error leaves
unchanged. -/

namespace Sys2Proof.Machine

/-! ### The condition a command reports (R205) -/

/-- The condition a command finds to report, `none` where it finds none or has none to look for: the first
that holds in the order state, parameter, capacity (R205). -/
def firstCondition (s : State) : Instr → Option Status
  | .initMk m k => checkInitMk s m k
  | .add _ => checkFilter s
  | .query _ => checkFilter s
  | .hashFnv _ => none
  | .hashMur _ => none
  | .rdreg _ => none
  | .rdbit v idx => checkRdbit s v idx

/-- On an Uninitialized block `ADD` and `QUERY` have a condition to report (R202 a). -/
theorem checkFilter_of_uninitialized {s : State} (hi : s.init = false) :
    checkFilter s = some .invalidState := if_neg (Bool.eq_false_iff.1 hi)

/-- A command answers the condition it finds, and OK where it finds none, whatever it does beside (R200,
R205). -/
theorem exec_rsp_firstCondition {i : Instr} {s t : State} (ht : exec i s = .next t) :
    ∃ value, t.rsp =
      s.rsp ++ encodeResponse ⟨opcodeOf i, (firstCondition s i).getD .ok, value⟩ := by
  cases i with
  | initMk m k =>
    obtain ⟨e, hc, rfl⟩ | ⟨hc, rfl⟩ := execInitMk_cases m k s t ht <;> rw [firstCondition, hc] <;>
      exact ⟨0, rfl⟩
  | add key =>
    obtain ⟨hi, rfl⟩ | ⟨hi, u, hu, rfl⟩ := execAdd_cases key s t ht
    · rw [firstCondition, checkFilter_of_uninitialized hi]
      exact ⟨0, rfl⟩
    · obtain ⟨-, -, -, -, hrsp⟩ := setRounds_frame hu
      rw [firstCondition, (checkFilter_eq_none s).2 hi, ← hrsp]
      exact ⟨0, rfl⟩
  | query key =>
    obtain ⟨hi, rfl⟩ | ⟨hi, b, -, rfl⟩ := execQuery_cases key s t ht
    · rw [firstCondition, checkFilter_of_uninitialized hi]
      exact ⟨0, rfl⟩
    · rw [firstCondition, (checkFilter_eq_none s).2 hi]
      exact ⟨bitValue b, rfl⟩
  | hashFnv key => cases ht; exact ⟨fnv32 key, rfl⟩
  | hashMur key => cases ht; exact ⟨murmur32 key, rfl⟩
  | rdreg r => cases ht; exact ⟨readReg s r, rfl⟩
  | rdbit v idx =>
    obtain ⟨e, hc, rfl⟩ | ⟨hc, -, rfl⟩ := execRdbit_cases v idx s t ht <;> rw [firstCondition, hc]
    · exact ⟨0, rfl⟩
    · exact ⟨bitValue (s.bit v.toNat idx.toNat), rfl⟩

/-- The code of the reported condition is that of the table's row (R205). -/
theorem statusCode_firstCondition (s : State) (i : Instr) :
    (statusCode ((firstCondition s i).getD .ok)).toNat = expectedCode s i := by
  cases i with
  | initMk m k =>
    have hz : ∀ w : Word, w = 0 ↔ w.toNat = 0 := fun w => BitVec.toNat_eq
    simp only [firstCondition, checkInitMk, expectedCode, hz]
    split_ifs <;> rfl
  | add key =>
    simp only [firstCondition, checkFilter, expectedCode]
    split_ifs <;> rfl
  | query key =>
    simp only [firstCondition, checkFilter, expectedCode]
    split_ifs <;> rfl
  | hashFnv key => rfl
  | hashMur key => rfl
  | rdreg r => rfl
  | rdbit v idx =>
    simp only [firstCondition, checkRdbit, expectedCode]
    split_ifs <;> rfl

/-! ### The STATUS of a response word (R77, R200) -/

/-- Bits [7:0] of a response's first word are the code of its STATUS (R77). -/
theorem responseWord_mod (opc : Byte) (st : Status) :
    (BitVec.ofNat 32 (opc.toNat * 2 ^ 24 + (statusCode st).toNat) : Word).toNat % 2 ^ 8 =
      (statusCode st).toNat := by
  have hcode := (statusCode st).isLt
  rw [BitVec.toNat_ofNat]
  omega

/-! ### The obligations -/

/-- Settles O43: a command always answers, and the condition it answers is that of its row. -/
theorem firstConditionIsReported : Obligations.FirstConditionIsReported := by
  intro i s hm
  obtain ⟨t, ht⟩ := exec_total i s hm
  obtain ⟨value, hrsp⟩ := exec_rsp_firstCondition ht
  rw [encodeResponse_eq, statusCode_firstCondition] at hrsp
  exact ⟨t, value, ht, hrsp⟩

/-- Settles O44: the low byte tells that the STATUS is an error, and an error changes no state. -/
theorem errorsChangeNothing : Obligations.ErrorsChangeNothing := by
  intro i s t w value h hrsp hcode
  obtain ⟨st, value', u, rfl, ⟨-, -, -, hu, -, -⟩, herr⟩ := exec_responds i s t h
  rw [respond_rsp, hu, encodeResponse_eq] at hrsp
  obtain ⟨rfl, -⟩ := List.cons.inj (List.append_cancel_left hrsp)
  rw [responseWord_mod] at hcode
  obtain ⟨rfl, rfl⟩ := herr fun hok => hcode ((statusCode_eq_zero st).2 hok)
  exact respond_eq ..

/-- Settles O35: the state condition is the first that holds; for `INIT_MK` it is the first clause of
`initMkErrors`. -/
theorem invalidStateIsReported : Obligations.InvalidStateIsReported := by
  refine ⟨fun key s hi => ?_, fun v idx s hi => ?_, initMkErrors.1⟩
  · rw [exec_add_of_uninitialized key hi, exec_query_of_uninitialized key hi]
    simp only [raise, respond_eq]
    exact ⟨rfl, rfl⟩
  · rw [exec_rdbit_of_error (if_pos hi), raise, respond_eq]
    rfl

end Sys2Proof.Machine
end

section
/-! PROOFS. The family of spec/70_reset_and_hazards.md: waiting for the words of a command, back-pressure, and
the reset event. -/

namespace Sys2Proof.Machine

/-! ### Waiting (R236, R237) -/

/-- A command word can move exactly while the block has room for a response (R237). -/
theorem canHappen_word_iff (s : State) (w : Word) :
    canHappen s (.word w) = true ↔ heldResponses s < s.rspDepth :=
  decide_eq_true_iff

/-- The block waits when no pending event can happen (R236). -/
theorem hostStep_eq_self {s : State} (h : ∀ e ∈ s.host, canHappen s e = false) : hostStep s = s := by
  obtain hs | ⟨e, before, after, hcan, hhost, -, -⟩ := hostStep_cases s
  · exact hs
  · simp [h e (by simp [hhost])] at hcan

/-- A transfer of a response word leaves the command channel as it is (R70). -/
@[simp] theorem transferResponse_cmd (s : State) : (transferResponse s).cmd = s.cmd := by
  unfold transferResponse
  split <;> rfl

/-- Agreement with one filter passes on to the next. -/
theorem SameFilter.trans {s t u : State} (h : SameFilter s t) (h' : SameFilter t u) :
    SameFilter s u := by
  obtain ⟨hi, hm, hk, hb, hc, hx⟩ := h
  obtain ⟨hi', hm', hk', hb', hc', hx'⟩ := h'
  exact ⟨hi.trans hi', hm.trans hm', hk.trans hk', hb.trans hb', hc.trans hc', hx.trans hx'⟩

/-- `t` is `s` after at most some response words have moved, with nothing but acceptances pending. -/
def State.awaitsAs (s t : State) : Prop :=
  t.cmd = s.cmd ∧ SameFilter s t ∧ t.received ++ t.rsp = s.received ++ s.rsp ∧
    ∀ e ∈ t.host, e = HostEvent.accept

/-- The host's turn keeps the block waiting as long as only acceptances are pending (R236). -/
theorem State.awaitsAs.after_hostStep {s t : State} (h : s.awaitsAs t) : s.awaitsAs (hostStep t) := by
  obtain ⟨hcmd, hsame, hstream, haccept⟩ := h
  obtain ht | ⟨e, before, after, -, hhost, -, ht⟩ := hostStep_cases t
  · rw [ht]
    exact ⟨hcmd, hsame, hstream, haccept⟩
  · obtain rfl : e = .accept := haccept e (by simp [hhost])
    rw [ht]
    refine ⟨(transferResponse_cmd _).trans hcmd, hsame.trans ?_,
      (transferResponse_stream _).trans hstream, fun e he => haccept e ?_⟩
    · exact sameFilter_hostEvent .accept { t with host := before ++ after } (by simp)
    · rw [hostEvent_host, List.mem_append] at he
      rw [hhost, List.mem_append, List.mem_cons]
      exact he.imp_right .inr

/-- A response word the host accepts moves past a command word that a full block does not take (R237). -/
theorem step_accept_behind_word {s : State} {w r : Word} {rsp : List Word} {es : List HostEvent}
    (hd : decode s.cmd = .incomplete) (hfull : s.rspDepth ≤ heldResponses s) (hrsp : s.rsp = r :: rsp)
    (hhost : s.host = .word w :: .accept :: es) :
    step s = .next { s with rsp := rsp, received := s.received ++ [r], host := .word w :: es } := by
  have hword : ¬ canHappen s (.word w) = true := fun h =>
    absurd ((canHappen_word_iff s w).1 h) hfull.not_gt
  have haccept : canHappen s .accept = true := by simp [canHappen, hrsp]
  rw [step_of_incomplete hd]
  simp [hostStep, hhost, firstEvent, hword, haccept, hostEvent, transferResponse, hrsp]

/-! ### Reset (R230, R232) -/

/-- A reset that is the host's next event happens while words are missing (R232). -/
theorem step_reset {s : State} {es : List HostEvent} (hd : decode s.cmd = .incomplete)
    (hhost : s.host = .reset :: es) : step s = .next (resetBlock { s with host := es }) := by
  rw [step_of_incomplete hd]
  simp [hostStep, hhost, firstEvent, canHappen, hostEvent]

/-! ### The obligations -/

/-- Settles O10: every step leaves the turn to the host, which can only take response words. -/
theorem missingWordsAreAwaited : Obligations.MissingWordsAreAwaited := by
  intro s n hd haccept
  have hnext : ∀ t, s.awaitsAs t → ∃ u, step t = .next u ∧ s.awaitsAs u := by
    intro t ht
    have ⟨hcmd, _⟩ := ht
    exact ⟨_, step_of_incomplete (hcmd ▸ hd), ht.after_hostStep⟩
  obtain ⟨t, ht, hcmd, hsame, hstream, -⟩ := run_total s.awaitsAs hnext n s
    ⟨rfl, ⟨rfl, rfl, rfl, rfl, rfl, rfl⟩, rfl, haccept⟩
  exact ⟨t, ht, hcmd, hsame, hstream⟩

/-- Settles O12: a full block takes no word, an acceptance moves past the word, and then the word is the
host's first event that can happen. -/
theorem fullResponseBufferStallsCommands : Obligations.FullResponseBufferStallsCommands := by
  refine ⟨fun s hd hfull hwords => ?_, fun s w r rsp es hd hfull hrsp hhost => ?_⟩
  · rw [step_of_incomplete hd, hostStep_eq_self]
    intro e he
    obtain ⟨w, rfl⟩ := hwords e he
    exact Bool.eq_false_iff.2 fun h => absurd ((canHappen_word_iff s w).1 h) hfull.not_gt
  · have hmove := step_accept_behind_word hd hfull hrsp hhost
    refine ⟨hmove, fun hroom => ?_⟩
    rw [run_succ 1 _ _ hmove, run_one]
    exact step_word hd hroom rfl

/-- Settles O14: the reset happens in this step, and `resetBlock` clears all but the parameters and the
host's side. -/
theorem resetEventResetsTheBlock : Obligations.ResetEventResetsTheBlock :=
  fun _ _ hd hhost =>
    ⟨_, step_reset hd hhost, rfl, rfl, rfl, rfl, rfl, rfl, rfl, rfl, rfl, rfl, rfl⟩

end Sys2Proof.Machine
end
